-- ==== Sys2Proof/Word.lean ====
section
/-! DEFINITION. The word types of the CHIP-8 core (spec 00 R8, R10, R11; 10 R31): bytes, 16-bit words
and register indices. -/

namespace Sys2Proof

/-- An 8-bit value: a general register, a timer, a byte of memory (R8). -/
abbrev Byte := BitVec 8

/-- A 16-bit value: I, PC, a return address, an instruction word (R8, R100). -/
abbrev Word := BitVec 16

/-- The index of a general register, 0 to 15 (R31). -/
abbrev Reg := Fin 16

/-- Register 15, the flag register VF (R12, R32). -/
abbrev VF : Reg := 15

end Sys2Proof
end

