-- ==== Sys2Proof/Syntax.lean ====
section
/-! DEFINITION. The instructions: one constructor per row of the opcode table (spec 30 R106), in the
table's order. -/

namespace Sys2Proof

/-- The 34 instructions of R106. `x` and `y` are register indices, `kk` the immediate byte, `n` the number of
sprite rows (0 to 15) and `nnn` the 12-bit address already zero-extended to 16 bits (R102; `Instr.wellFormed`
holds its range; log 34). -/
inductive Instr where
  | cls
  | ret
  | jp (nnn : Word)
  | call (nnn : Word)
  | seImm (x : Reg) (kk : Byte)
  | sneImm (x : Reg) (kk : Byte)
  | seReg (x y : Reg)
  | ldImm (x : Reg) (kk : Byte)
  | addImm (x : Reg) (kk : Byte)
  | ldReg (x y : Reg)
  | orReg (x y : Reg)
  | andReg (x y : Reg)
  | xorReg (x y : Reg)
  | addReg (x y : Reg)
  | subReg (x y : Reg)
  /-- 8XY6: the y field is decoded but not read (R106, R198; log 25). -/
  | shr (x y : Reg)
  | subnReg (x y : Reg)
  /-- 8XYE: the y field is decoded but not read (R106, R200; log 25). -/
  | shl (x y : Reg)
  | sneReg (x y : Reg)
  | ldI (nnn : Word)
  | jpV0 (nnn : Word)
  | rnd (x : Reg) (kk : Byte)
  | drw (x y : Reg) (n : Fin 16)
  | skp (x : Reg)
  | sknp (x : Reg)
  | ldVxDt (x : Reg)
  | ldVxKey (x : Reg)
  | ldDtVx (x : Reg)
  | ldStVx (x : Reg)
  | addIVx (x : Reg)
  | ldFont (x : Reg)
  | ldBcd (x : Reg)
  | storeRegs (x : Reg)
  | loadRegs (x : Reg)
  deriving DecidableEq, Repr

end Sys2Proof
end

