-- ==== Sys2Proof/Decode.lean ====
section
/-! DEFINITION. Instruction words: the fields (spec 30 R101, R102), the opcode table (R106), the decoder as the
table's search (R104, R105), the byte form of an instruction (R77, R100) and the encoder. -/

namespace Sys2Proof

/-! ### Fields of a word (R101) -/

/-- `x`, w[11:8]: a register index. -/
def fieldX (w : Word) : Reg := (w.extractLsb' 8 4).toFin

/-- `y`, w[7:4]: a register index. -/
def fieldY (w : Word) : Reg := (w.extractLsb' 4 4).toFin

/-- `n`, w[3:0]: a count of sprite rows. -/
def fieldN (w : Word) : Fin 16 := (w.extractLsb' 0 4).toFin

/-- `kk`, w[7:0]: an immediate byte. -/
def fieldKK (w : Word) : Byte := w.extractLsb' 0 8

/-- `nnn`, w[11:0], zero-extended to 16 bits (R102). -/
def fieldNNN (w : Word) : Word := (w.extractLsb' 0 12).setWidth 16

/-! ### The opcode table (R106) -/

/-- One row of R106: the word matches when its bits under `mask` are `pattern`; `build` reads the operands. -/
structure OpcodeRow where
  mnemonic : String
  mask : Word
  pattern : Word
  build : Word → Instr

/-- A word satisfies a row's mask and match (R104). Every fixed bit is compared (R105). -/
def OpcodeRow.accepts (r : OpcodeRow) (w : Word) : Bool := (w &&& r.mask) == r.pattern

/-- Rows 1 to 9 of R106. -/
def opcodeRowsLow : List OpcodeRow := [
  ⟨"CLS", 0xFFFF#16, 0x00E0#16, fun _ => .cls⟩,
  ⟨"RET", 0xFFFF#16, 0x00EE#16, fun _ => .ret⟩,
  ⟨"JP_nnn", 0xF000#16, 0x1000#16, fun w => .jp (fieldNNN w)⟩,
  ⟨"CALL_nnn", 0xF000#16, 0x2000#16, fun w => .call (fieldNNN w)⟩,
  ⟨"SE_Vx__kk", 0xF000#16, 0x3000#16, fun w => .seImm (fieldX w) (fieldKK w)⟩,
  ⟨"SNE_Vx__kk", 0xF000#16, 0x4000#16, fun w => .sneImm (fieldX w) (fieldKK w)⟩,
  ⟨"SE_Vx__Vy", 0xF00F#16, 0x5000#16, fun w => .seReg (fieldX w) (fieldY w)⟩,
  ⟨"LD_Vx__kk", 0xF000#16, 0x6000#16, fun w => .ldImm (fieldX w) (fieldKK w)⟩,
  ⟨"ADD_Vx__kk", 0xF000#16, 0x7000#16, fun w => .addImm (fieldX w) (fieldKK w)⟩]

/-- Rows 10 to 19 of R106. -/
def opcodeRowsRegister : List OpcodeRow := [
  ⟨"LD_Vx__Vy", 0xF00F#16, 0x8000#16, fun w => .ldReg (fieldX w) (fieldY w)⟩,
  ⟨"OR_Vx__Vy", 0xF00F#16, 0x8001#16, fun w => .orReg (fieldX w) (fieldY w)⟩,
  ⟨"AND_Vx__Vy", 0xF00F#16, 0x8002#16, fun w => .andReg (fieldX w) (fieldY w)⟩,
  ⟨"XOR_Vx__Vy", 0xF00F#16, 0x8003#16, fun w => .xorReg (fieldX w) (fieldY w)⟩,
  ⟨"ADD_Vx__Vy", 0xF00F#16, 0x8004#16, fun w => .addReg (fieldX w) (fieldY w)⟩,
  ⟨"SUB_Vx__Vy", 0xF00F#16, 0x8005#16, fun w => .subReg (fieldX w) (fieldY w)⟩,
  ⟨"SHR_Vx", 0xF00F#16, 0x8006#16, fun w => .shr (fieldX w) (fieldY w)⟩,
  ⟨"SUBN_Vx__Vy", 0xF00F#16, 0x8007#16, fun w => .subnReg (fieldX w) (fieldY w)⟩,
  ⟨"SHL_Vx", 0xF00F#16, 0x800E#16, fun w => .shl (fieldX w) (fieldY w)⟩,
  ⟨"SNE_Vx__Vy", 0xF00F#16, 0x9000#16, fun w => .sneReg (fieldX w) (fieldY w)⟩]

/-- Rows 20 to 25 of R106. -/
def opcodeRowsHigh : List OpcodeRow := [
  ⟨"LD_I__nnn", 0xF000#16, 0xA000#16, fun w => .ldI (fieldNNN w)⟩,
  ⟨"JP_V0__nnn", 0xF000#16, 0xB000#16, fun w => .jpV0 (fieldNNN w)⟩,
  ⟨"RND_Vx__kk", 0xF000#16, 0xC000#16, fun w => .rnd (fieldX w) (fieldKK w)⟩,
  ⟨"DRW_Vx__Vy__n", 0xF000#16, 0xD000#16, fun w => .drw (fieldX w) (fieldY w) (fieldN w)⟩,
  ⟨"SKP_Vx", 0xF0FF#16, 0xE09E#16, fun w => .skp (fieldX w)⟩,
  ⟨"SKNP_Vx", 0xF0FF#16, 0xE0A1#16, fun w => .sknp (fieldX w)⟩]

/-- Rows 26 to 34 of R106. -/
def opcodeRowsMisc : List OpcodeRow := [
  ⟨"LD_Vx__DT", 0xF0FF#16, 0xF007#16, fun w => .ldVxDt (fieldX w)⟩,
  ⟨"LD_Vx__K", 0xF0FF#16, 0xF00A#16, fun w => .ldVxKey (fieldX w)⟩,
  ⟨"LD_DT__Vx", 0xF0FF#16, 0xF015#16, fun w => .ldDtVx (fieldX w)⟩,
  ⟨"LD_ST__Vx", 0xF0FF#16, 0xF018#16, fun w => .ldStVx (fieldX w)⟩,
  ⟨"ADD_I__Vx", 0xF0FF#16, 0xF01E#16, fun w => .addIVx (fieldX w)⟩,
  ⟨"LD_F__Vx", 0xF0FF#16, 0xF029#16, fun w => .ldFont (fieldX w)⟩,
  ⟨"LD_B__Vx", 0xF0FF#16, 0xF033#16, fun w => .ldBcd (fieldX w)⟩,
  ⟨"LD__I___Vx", 0xF0FF#16, 0xF055#16, fun w => .storeRegs (fieldX w)⟩,
  ⟨"LD_Vx___I", 0xF0FF#16, 0xF065#16, fun w => .loadRegs (fieldX w)⟩]

/-- The whole opcode table, in the order of R106. The patterns are general knowledge (log 4). -/
def opcodeTable : List OpcodeRow :=
  opcodeRowsLow ++ opcodeRowsRegister ++ opcodeRowsHigh ++ opcodeRowsMisc

/-! ### Decoding -/

/-- Why bytes are no instruction: the word matches no row (R104), or fewer than two bytes were given (R100). -/
inductive DecodeReject where
  | unrecognized (w : Word)
  | truncated
  deriving DecidableEq, Repr

/-- R104: a word decodes to the instruction whose mask and match it satisfies; every other word is
Unrecognized. -/
def decode (w : Word) : Except DecodeReject Instr :=
  match opcodeTable.find? (·.accepts w) with
  | some r => .ok (r.build w)
  | none => .error (.unrecognized w)

/-- A word from its two bytes, the high byte first (R77): the byte at the lower address is bits 15..8. -/
def wordOfBytes (hi lo : Byte) : Word := hi ++ lo

/-- Bits 15..8, the byte at the lower address (R77, R101 byte1). -/
def highByte (w : Word) : Byte := w.extractLsb' 8 8

/-- Bits 7..0, the byte at the higher address (R77, R101 byte2). -/
def lowByte (w : Word) : Byte := w.extractLsb' 0 8

/-- The instruction at the front of a byte sequence and the bytes after it; every instruction is two bytes
(R100). -/
def decodeBytes : List Byte → Except DecodeReject (Instr × List Byte)
  | hi :: lo :: rest =>
    match decode (wordOfBytes hi lo) with
    | .ok i => .ok (i, rest)
    | .error e => .error e
  | _ => .error .truncated

/-! ### Encoding -/

/-- A register index as its 4-bit field. -/
def nibble (r : Reg) : BitVec 4 := BitVec.ofFin r

/-- The shape c NNN. -/
def formNNN (c : BitVec 4) (nnn : Word) : Word := c ++ nnn.extractLsb' 0 12

/-- The shape c X KK, also used for E X and F X rows, whose low byte is fixed. -/
def formXKK (c : BitVec 4) (x : Reg) (kk : Byte) : Word := c ++ nibble x ++ kk

/-- The shape c X Y N, also used for 5, 8 and 9 rows, whose low nibble is fixed. -/
def formXYN (c : BitVec 4) (x y : Reg) (n : BitVec 4) : Word := c ++ nibble x ++ nibble y ++ n

/-- The word of an instruction (R106). -/
def encode : Instr → Word
  | .cls => 0x00E0
  | .ret => 0x00EE
  | .jp nnn => formNNN 0x1 nnn
  | .call nnn => formNNN 0x2 nnn
  | .seImm x kk => formXKK 0x3 x kk
  | .sneImm x kk => formXKK 0x4 x kk
  | .seReg x y => formXYN 0x5 x y 0x0
  | .ldImm x kk => formXKK 0x6 x kk
  | .addImm x kk => formXKK 0x7 x kk
  | .ldReg x y => formXYN 0x8 x y 0x0
  | .orReg x y => formXYN 0x8 x y 0x1
  | .andReg x y => formXYN 0x8 x y 0x2
  | .xorReg x y => formXYN 0x8 x y 0x3
  | .addReg x y => formXYN 0x8 x y 0x4
  | .subReg x y => formXYN 0x8 x y 0x5
  | .shr x y => formXYN 0x8 x y 0x6
  | .subnReg x y => formXYN 0x8 x y 0x7
  | .shl x y => formXYN 0x8 x y 0xE
  | .sneReg x y => formXYN 0x9 x y 0x0
  | .ldI nnn => formNNN 0xA nnn
  | .jpV0 nnn => formNNN 0xB nnn
  | .rnd x kk => formXKK 0xC x kk
  | .drw x y n => formXYN 0xD x y (nibble n)
  | .skp x => formXKK 0xE x 0x9E
  | .sknp x => formXKK 0xE x 0xA1
  | .ldVxDt x => formXKK 0xF x 0x07
  | .ldVxKey x => formXKK 0xF x 0x0A
  | .ldDtVx x => formXKK 0xF x 0x15
  | .ldStVx x => formXKK 0xF x 0x18
  | .addIVx x => formXKK 0xF x 0x1E
  | .ldFont x => formXKK 0xF x 0x29
  | .ldBcd x => formXKK 0xF x 0x33
  | .storeRegs x => formXKK 0xF x 0x55
  | .loadRegs x => formXKK 0xF x 0x65

/-- The bytes of an instruction, as they stand in memory (R77). -/
def encodeBytes (i : Instr) : List Byte := [highByte (encode i), lowByte (encode i)]

/-! ### The host's numbering of an opcode-table word -/

/-- The instruction word among `nbits` table bits: bit 0 is the least significant bit of the word, and bits the
table does not give are 0. -/
def tableWord (nbits w : Nat) : Word := BitVec.ofNat 16 (w % 2 ^ nbits)

/-- The instruction the decoder reads from a table word laid out in memory's byte order. -/
def decodeTableWord (nbits w : Nat) : Option Instr :=
  match decodeBytes [highByte (tableWord nbits w), lowByte (tableWord nbits w)] with
  | .ok (i, _) => some i
  | .error _ => none

end Sys2Proof
end

