-- ==== Sys2Proof/Config.lean ====
section
/-! DEFINITION. What an implementation fixes (the parameters of spec 00 R8) and the free value of the
machine (the random oracle of R9). The default values stand in Machine/Params.lean. -/

namespace Sys2Proof

/-- Which of the two writes of 8XY4, 8XY5, 8XY6, 8XY7 and 8XYE wins when x = 0xF (R8 VF_ORDER, R203). -/
inductive VfOrder where
  | documentOrder
  | flagLast
  | resultLast
  deriving DecidableEq, Repr

/-- How EX9E and EXA1 read the keypad (R8 KEY_SKIP_MODE, R292). -/
inductive KeySkipMode where
  | keyIndexed
  | firstPressed
  deriving DecidableEq, Repr

/-- The parameters of R8. The model takes them as data: `State.cfg` holds them and no operation changes them
(log 2). -/
structure Config where
  /-- MEM_SIZE: bytes of memory, at addresses 0 to MEM_SIZE − 1. -/
  memSize : Nat
  /-- STACK_DEPTH: the most return addresses the call stack holds. -/
  stackDepth : Nat
  /-- VF_ORDER. -/
  vfOrder : VfOrder
  /-- LS_INCREMENT_I: whether FX55 and FX65 advance I. -/
  lsIncrementI : Bool
  /-- PROTECT_RESERVED: whether a program store below 0x200 faults. -/
  protectReserved : Bool
  /-- KEY_SKIP_MODE. -/
  keySkipMode : KeySkipMode
  /-- FONT: the glyph bytes at 0x000 to 0x04F. -/
  font : Vector Byte 80
  deriving DecidableEq, Repr

/-- The types R8 gives the two numbers: MEM_SIZE is at least 0x200 and STACK_DEPTH at least 1. -/
abbrev Config.wf (c : Config) : Prop := 0x200 ≤ c.memSize ∧ 1 ≤ c.stackDepth

/-- FREE VALUE (log 3): the oracle `rand` of R9, one byte for each draw, indexed by the number of the draw.
It has no body, so a proof holds for every sequence of bytes (R9, D11). -/
opaque Config.randByte : Nat → Byte

end Sys2Proof
end

