-- ==== Sys2Proof/Machine/Params.lean ====
section
/-! DEFINITION. The default value of each parameter of spec 00 R8: the machine this hardware is by default. -/

namespace Sys2Proof.Machine

/-- Glyphs 0 to 3 (20 R76). Glyph 0 is the source's; the others are general knowledge (log 21). -/
def fontGlyphs0 : List Byte :=
  [0xF0, 0x90, 0x90, 0x90, 0xF0] ++ [0x20, 0x60, 0x20, 0x20, 0x70] ++
  [0xF0, 0x10, 0xF0, 0x80, 0xF0] ++ [0xF0, 0x10, 0xF0, 0x10, 0xF0]

/-- Glyphs 4 to 7 (20 R76; log 21). -/
def fontGlyphs4 : List Byte :=
  [0x90, 0x90, 0xF0, 0x10, 0x10] ++ [0xF0, 0x80, 0xF0, 0x10, 0xF0] ++
  [0xF0, 0x80, 0xF0, 0x90, 0xF0] ++ [0xF0, 0x10, 0x20, 0x40, 0x40]

/-- Glyphs 8 to B (20 R76; log 21). -/
def fontGlyphs8 : List Byte :=
  [0xF0, 0x90, 0xF0, 0x90, 0xF0] ++ [0xF0, 0x90, 0xF0, 0x10, 0xF0] ++
  [0xF0, 0x90, 0xF0, 0x90, 0x90] ++ [0xE0, 0x90, 0xE0, 0x90, 0xE0]

/-- Glyphs C to F (20 R76; log 21). -/
def fontGlyphsC : List Byte :=
  [0xF0, 0x80, 0x80, 0x80, 0xF0] ++ [0xE0, 0x90, 0x90, 0x90, 0xE0] ++
  [0xF0, 0x80, 0xF0, 0x80, 0xF0] ++ [0xF0, 0x80, 0xF0, 0x80, 0x80]

/-- The default of FONT: 16 glyphs of 5 bytes, glyph d at bytes 5d to 5d + 4 (20 R75, R76). -/
def defaultFont : Vector Byte 80 :=
  ⟨(fontGlyphs0 ++ fontGlyphs4 ++ fontGlyphs8 ++ fontGlyphsC).toArray, rfl⟩

/-- The defaults of R8: MEM_SIZE 4096 (log 6), STACK_DEPTH 16 (log 7), VF_ORDER DocumentOrder (log 8),
LS_INCREMENT_I false (log 9), PROTECT_RESERVED true (log 11), KEY_SKIP_MODE KeyIndexed (log 12) and FONT. -/
def defaultConfig : Config where
  memSize := 4096
  stackDepth := 16
  vfOrder := .documentOrder
  lsIncrementI := false
  protectReserved := true
  keySkipMode := .keyIndexed
  font := defaultFont

end Sys2Proof.Machine
end

