-- ==== Sys2Proof/Machine/State.lean ====
section
/-! DEFINITION. The state of the core (spec 10 R30), its fault records (60 R320, R321), the reasons a host
request is refused, and the power-on state (70 R360, R361). -/

namespace Sys2Proof.Machine

/-- The fault kinds of R320, each with its record of R321: `pc0` is the address of the instruction, `w` the word
fetched. A STEP that raises one is undone and leaves it in `State.status` (R322), so `step` answers a NEXT state
for it and never stops (log 1). -/
inductive Fault where
  /-- Raised by STEP at decode: the word is no instruction (R104, R144). Safe where a looser decoder would run
  the word (log 5). -/
  | unrecognizedOpcode (pc0 w : Word)
  /-- Raised by 2NNN when the stack is full (R162). Safe where the reference code has no bound (log 7). -/
  | stackOverflow (pc0 w : Word)
  /-- Raised by 00EE on an empty stack (R160). The source's own fault. -/
  | stackUnderflow (pc0 w : Word)
  /-- Returned by LOAD for a ROM longer than `limit` = MEM_SIZE − 0x200 (R362); no state changes. The source's own
  fault. -/
  | romTooLarge (len limit : Nat)
  /-- Raised by STEP at fetch when PC + 1 ≥ MEM_SIZE (R82); no word was fetched. Safe (log 10). -/
  | fetchOutOfRange (pc0 : Word)
  /-- Raised by DXYN, FX33, FX55 and FX65; `addr` is the lowest address ≥ MEM_SIZE (R80). Safe (log 10). -/
  | memoryOutOfRange (pc0 w : Word) (addr : Nat)
  /-- Raised by FX33 and FX55 under PROTECT_RESERVED; `addr` is the lowest address below 0x200 (R81). Safe
  (log 11). -/
  | reservedWrite (pc0 w : Word) (addr : Nat)
  /-- Raised by EX9E and EXA1 in KeyIndexed mode when V[x] = `value` ≥ 16 (R292). Safe (log 12). -/
  | keyIndexOutOfRange (pc0 w : Word) (value : Byte)
  deriving DecidableEq, Repr

/-- Why a request is turned away without any effect. -/
inductive Refusal where
  /-- Raised by `exec` for an instruction without a meaning yet: no arm raises it. Safe. -/
  | notModelled (mnemonic : String)
  /-- Raised by the host query PIXEL(x, y) with x ≥ 64 or y ≥ 32 (R268; log 20). Safe: no state changes. -/
  | pixelOutOfRange (x y : Nat)
  deriving DecidableEq, Repr

/-- The run status (R46): Running, or Faulted with the fault's kind and record. -/
inductive RunStatus where
  | running
  | faulted (f : Fault)
  deriving DecidableEq, Repr

/-- Memory: the bytes that differ from what memory holds at reset, as (address, byte) pairs with strictly rising
addresses (log 33). -/
abbrev Memory := List Host.Cell

/-- The framebuffer: 32 rows, each a 64-bit mask whose most significant bit is column 0 (R42, R43). -/
abbrev Framebuffer := Vector (BitVec 64) 32

/-- The keypad: one flag per key (R44). -/
abbrev Keypad := Vector Bool 16

/-- The record of R30, with the parameters of R8 (`cfg`) and the count of random draws (`draws`). -/
structure State where
  /-- The parameters (R8). The model's own field (log 2). -/
  cfg : Config
  /-- V0 to VF (R31). -/
  v : Vector Byte 16
  /-- The index register I (R38). -/
  i : Word
  /-- The program counter PC (R34). -/
  pc : Word
  /-- The delay timer DT (R39). -/
  dt : Byte
  /-- The sound timer ST (R40). -/
  st : Byte
  /-- The call stack, oldest entry first and the top last (R12, R41). -/
  stack : List Word
  /-- Memory (R70), see `Memory`. -/
  mem : Memory
  /-- The framebuffer (R42). -/
  fb : Framebuffer
  /-- The keypad (R44). -/
  key : Keypad
  /-- The run status (R46). -/
  status : RunStatus
  /-- How many bytes have been drawn from the oracle of R9. The model's own field (log 3). -/
  draws : Nat
  deriving DecidableEq, Repr

/-- The power-on state: the power-on column of R360 (R361; log 14), with the default parameters. Memory lists
nothing, since it holds FONT and zeros (log 33). -/
def State.reset : State where
  cfg := defaultConfig
  v := Vector.replicate 16 0
  i := 0
  pc := 0x200
  dt := 0
  st := 0
  stack := []
  mem := []
  fb := Vector.replicate 32 0
  key := Vector.replicate 16 false
  status := .running
  draws := 0

end Sys2Proof.Machine
end

