-- ==== Sys2Proof/Machine/Ops.lean ====
section
/-! DEFINITION. The named operations over memory, registers and the call stack (spec 00 R12, R13), and taking a
fault as one shared operation (00 R14; 40 R145; 60 R322). The return from a fault is `load` in HostOps.lean
(60 R323). -/

namespace Sys2Proof.Machine

/-! ### Memory as a list of the bytes that differ from its reset content (20 R70, R73; log 33) -/

/-- What an address holds at reset and so what an unlisted address reads as: FONT at 0x000..0x04F, 0 elsewhere
(R73, R360). -/
def background (c : Config) (a : Nat) : Byte :=
  if h : a < 80 then c.font[a] else 0

/-- The listed byte at an address, if there is one. -/
def Memory.find : Memory → Nat → Option Byte
  | [], _ => none
  | (k, b) :: rest, a => if a = k then some b else Memory.find rest a

/-- The byte at an address: the listed one, else the reset content (R85). -/
def Memory.read (c : Config) (m : Memory) (a : Nat) : Byte :=
  (Memory.find m a).getD (background c a)

/-- The list without an entry for the address. -/
def Memory.erase : Memory → Nat → Memory
  | [], _ => []
  | (k, b) :: rest, a => if a = k then rest else (k, b) :: Memory.erase rest a

/-- The list with an entry for the address, in its place. -/
def Memory.insert : Memory → Nat → Byte → Memory
  | [], a, x => [(a, x)]
  | (k, b) :: rest, a, x =>
    if a < k then (a, x) :: (k, b) :: rest
    else if a = k then (a, x) :: rest
    else (k, b) :: Memory.insert rest a x

/-- Memory after one byte is written: an entry, or none where the byte is the reset content. -/
def Memory.write (c : Config) (m : Memory) (a : Nat) (x : Byte) : Memory :=
  if x = background c a then Memory.erase m a else Memory.insert m a x

/-- Bytes written at a, a+1, ... in ascending order (R13, R78). -/
def Memory.writeAll (c : Config) (m : Memory) : Nat → List Byte → Memory
  | _, [] => m
  | a, x :: xs => Memory.writeAll c (Memory.write c m a x) (a + 1) xs

/-- The canonical form: addresses strictly rising and below MEM_SIZE, no entry equal to the reset content. -/
abbrev Memory.wf (c : Config) (m : Memory) : Prop :=
  m.Pairwise (fun e f => e.1 < f.1) ∧ ∀ e ∈ m, e.1 < c.memSize ∧ e.2 ≠ background c e.1

/-! ### Field updates (00 R12) -/

/-- `V[x]` (R12). No register is hard-wired (10 R31). -/
def State.getV (s : State) (x : Reg) : Byte := s.v[x.val]

/-- `V[x] <- b` (R12). -/
def State.setV (s : State) (x : Reg) (b : Byte) : State := { s with v := s.v.set x.val b }

/-- `I <- a` (R12). -/
def State.setI (s : State) (a : Word) : State := { s with i := a }

/-- `PC <- a` (R12). -/
def State.setPc (s : State) (a : Word) : State := { s with pc := a }

/-- `DT <- b` (R12). -/
def State.setDt (s : State) (b : Byte) : State := { s with dt := b }

/-- `ST <- b` (R12). -/
def State.setSt (s : State) (b : Byte) : State := { s with st := b }

/-- The call stack replaced (R12). -/
def State.setStack (s : State) (l : List Word) : State := { s with stack := l }

/-- Memory replaced. -/
def State.setMem (s : State) (m : Memory) : State := { s with mem := m }

/-- `fb <- f` (R12). -/
def State.setFb (s : State) (f : Framebuffer) : State := { s with fb := f }

/-- `key <- k` (R290). -/
def State.setKey (s : State) (k : Keypad) : State := { s with key := k }

/-- The run status replaced (R46). -/
def State.setStatus (s : State) (r : RunStatus) : State := { s with status := r }

/-- The count of random draws replaced (log 3). -/
def State.setDraws (s : State) (n : Nat) : State := { s with draws := n }

/-! ### Bytes of memory -/

/-- `mem[a]` (R12, R70). -/
def State.readByte (s : State) (a : Nat) : Byte := Memory.read s.cfg s.mem a

/-- The n bytes at a, a+1, ..., first byte first (R13). -/
def State.readBytes (s : State) : Nat → Nat → List Byte
  | _, 0 => []
  | a, n + 1 => s.readByte a :: s.readBytes (a + 1) n

/-- The bytes written at a, a+1, ... (R13). -/
def State.writeBytes (s : State) (a : Nat) (bs : List Byte) : State :=
  s.setMem (Memory.writeAll s.cfg s.mem a bs)

/-! ### Checks of an access (20 R80, R81) -/

/-- The lowest of the n addresses from a that is not `ok`. -/
def lowestFailing (ok : Nat → Bool) : Nat → Nat → Option Nat
  | _, 0 => none
  | a, n + 1 => if ok a then lowestFailing ok (a + 1) n else some a

/-- The address of the instruction being executed: PC − 2, since PC was advanced after the fetch (10 R34, 40 R143;
log 31). -/
def State.pc0 (s : State) : Word := s.pc - 2

/-- The data range check (R80): every address is below MEM_SIZE. -/
def State.checkRange (s : State) (w : Word) (a n : Nat) : Option Fault :=
  (lowestFailing (fun k => decide (k < s.cfg.memSize)) a n).map (.memoryOutOfRange s.pc0 w)

/-- The reserved-write check (R81): under PROTECT_RESERVED every address is at least 0x200. -/
def State.checkReserved (s : State) (w : Word) (a n : Nat) : Option Fault :=
  if s.cfg.protectReserved then
    (lowestFailing (fun k => decide (0x200 ≤ k)) a n).map (.reservedWrite s.pc0 w)
  else none

/-- `MemRead(a, n)` of R13: every address is checked by R80 before any byte is read. `w` is the instruction's
word, for the fault record (60 R321). -/
def memRead (s : State) (w : Word) (a n : Nat) : Except Fault (List Byte) :=
  match s.checkRange w a n with
  | some f => .error f
  | none => .ok (s.readBytes a n)

/-- `MemWrite(a, n, bs)` of R13: every address is checked by R80, then by R81, before any byte is written. -/
def memWrite (s : State) (w : Word) (a : Nat) (bs : List Byte) : Except Fault State :=
  match s.checkRange w a bs.length with
  | some f => .error f
  | none =>
    match s.checkReserved w a bs.length with
    | some f => .error f
    | none => .ok (s.writeBytes a bs)

/-- `Fetch(PC)` of R13 and 40 R142: the fetch range check of 20 R82, then the two bytes, high byte first (R77). -/
def fetch (s : State) : Except Fault Word :=
  if s.pc.toNat + 1 < s.cfg.memSize then
    .ok (wordOfBytes (s.readByte s.pc.toNat) (s.readByte (s.pc.toNat + 1)))
  else .error (.fetchOutOfRange s.pc)

/-- The instruction at PC (R140): fetch, then decode, where an Unrecognized word raises its fault (40 R144). -/
def fetchInstr (s : State) : Except Fault Instr :=
  match fetch s with
  | .error f => .error f
  | .ok w =>
    match decode w with
    | .ok i => .ok i
    | .error _ => .error (.unrecognizedOpcode s.pc w)

/-- PC advanced past the fetched word before the instruction executes (40 R143). -/
def State.advancePc (s : State) : State := s.setPc (s.pc + 2)

/-! ### The call stack (10 R41) -/

/-- `push(a)` with the check of 41 R162. The check is written as "not below the bound", which on stacks of the
length R41 allows is R162's equality. -/
def pushStack (s : State) (w : Word) (a : Word) : Except Fault State :=
  if s.stack.length < s.cfg.stackDepth then .ok (s.setStack (s.stack ++ [a]))
  else .error (.stackOverflow s.pc0 w)

/-- `pop()` with the check of 41 R160: the top entry and the state without it. -/
def popStack (s : State) (w : Word) : Except Fault (Word × State) :=
  match s.stack.getLast? with
  | some a => .ok (a, s.setStack s.stack.dropLast)
  | none => .error (.stackUnderflow s.pc0 w)

/-! ### Taking a fault, and the transaction (00 R14, 40 R145, 60 R322) -/

/-- Fault delivery (R322): every write of the STEP is undone, PC is the address of the faulting instruction, and
status becomes Faulted with the record. `s` is a state in which this STEP has written nothing but PC. The
result is a next state: STEP completes and the host reads the fault as its result and by STATUS (log 1). -/
def takeFault (pc0 : Word) (f : Fault) (s : State) : Host.Outcome State Fault Refusal :=
  .next ((s.setPc pc0).setStatus (.faulted f))

/-- An instruction as a transaction (R145): it commits every write, or it takes its fault with none. -/
def transact (s : State) (r : Except Fault State) : Host.Outcome State Fault Refusal :=
  match r with
  | .ok t => .next t
  | .error f => takeFault s.pc0 f s

end Sys2Proof.Machine
end

