-- ==== Sys2Proof/Machine/Flags.lean ====
section
/-! DEFINITION. The values VF is given as a flag (spec 10 R37; 42 R196 to R200) and the order of the result and
flag writes when x = 0xF (42 R203). -/

namespace Sys2Proof.Machine

/-- A flag as VF's value: 1 or 0 (R37). -/
def flagByte (f : Bool) : Byte := if f then 1 else 0

/-- Carry of 8XY4 (R196): the exact sum exceeds 255. -/
def carryOut (a b : Byte) : Bool := decide (255 < a.toNat + b.toNat)

/-- No borrow of a − b (R197, R199): a ≥ b. -/
def noBorrow (a b : Byte) : Bool := decide (b.toNat ≤ a.toNat)

/-- The bit 8XY6 shifts out: bit 0 (R198). -/
def shiftedOutRight (a : Byte) : Bool := a.getLsbD 0

/-- The bit 8XYE shifts out: bit 7 (R200). -/
def shiftedOutLeft (a : Byte) : Bool := a.getLsbD 7

/-- Whether the flag write is the later one (R203). `documentFlagLast` says which order the instruction's own row
states: the flag last for 8XY4, 8XY5 and 8XY7, the result last for 8XY6 and 8XYE. -/
def flagWrittenLast (o : VfOrder) (documentFlagLast : Bool) : Bool :=
  match o with
  | .documentOrder => documentFlagLast
  | .flagLast => true
  | .resultLast => false

/-- The writes `(result) V[x] <- r` and `(flag) VF <- f` in the order VF_ORDER selects (R203; log 8). -/
def State.writeResultFlag (s : State) (documentFlagLast : Bool) (x : Reg) (r : Byte) (f : Bool) : State :=
  if flagWrittenLast s.cfg.vfOrder documentFlagLast then (s.setV x r).setV VF (flagByte f)
  else (s.setV VF (flagByte f)).setV x r

end Sys2Proof.Machine
end

