-- ==== Sys2Proof/Machine/Operands.lean ====
section
/-! DEFINITION. The operand forms (spec 00 R12; 30 R102; 43 intro): registers, zero-extended bytes, the
addresses through I, the register block, the BCD digits, the keypad and the random byte. -/

namespace Sys2Proof.Machine

/-- `zext_16(b)` (R11, R102): no value is sign-extended. -/
def zext16 (b : Byte) : Word := b.setWidth 16

/-- The base address of a data access: I as an exact integer, never wrapped or masked (43 intro, 20 R80; log 10). -/
def State.base (s : State) : Nat := s.i.toNat

/-- The list [V0..Vx] (43 R234). -/
def State.regsUpTo (s : State) (x : Reg) : List Byte := s.v.toList.take (x.val + 1)

/-- `V[k] <- bs[k]` for k from a start index upward (43 R235). -/
def State.setRegsFrom (s : State) : Nat → List Byte → State
  | _, [] => s
  | k, b :: bs => (s.setV (Fin.ofNat 16 k) b).setRegsFrom (k + 1) bs

/-- `if LS_INCREMENT_I: I <- I +₁₆ (x + 1)` (43 R234, R235; log 9). -/
def State.advanceI (s : State) (x : Reg) : State :=
  if s.cfg.lsIncrementI then s.setI (s.i + BitVec.ofNat 16 (x.val + 1)) else s

/-- The hundreds, tens and ones digits of a byte (43 R233). -/
def bcdDigits (b : Byte) : List Byte :=
  [BitVec.ofNat 8 (b.toNat / 100), BitVec.ofNat 8 (b.toNat / 10 % 10), BitVec.ofNat 8 (b.toNat % 10)]

/-- The address of the font glyph a byte selects: 5 × the byte, not masked to a nibble (43 R232). -/
def fontAddress (b : Byte) : Word := BitVec.ofNat 16 (5 * b.toNat)

/-- `first_pressed()`: the lowest index of a pressed key, or none (45 R291). -/
def State.firstPressed (s : State) : Option Reg := (List.finRange 16).find? (fun k => s.key[k.val])

/-- The key test of EX9E and EXA1 for a register value (45 R292): true where the instruction takes the key as
pressed, or the KeyIndexOutOfRange fault of KeyIndexed mode. -/
def State.keyTest (s : State) (w : Word) (b : Byte) : Except Fault Bool :=
  match s.cfg.keySkipMode with
  | .keyIndexed =>
    if h : b.toNat < 16 then .ok s.key[b.toNat] else .error (.keyIndexOutOfRange s.pc0 w b)
  | .firstPressed =>
    .ok (match s.firstPressed with
      | some k => decide (k.val = b.toNat)
      | none => false)

/-- The next byte of the oracle `rand` (00 R9; log 3). -/
def State.nextRandom (s : State) : Byte := Config.randByte s.draws

/-- One draw taken, so that the next one is fresh (42 R201; log 3). -/
def State.drawn (s : State) : State := s.setDraws (s.draws + 1)

/-- `if c: PC <- PC +₁₆ 2`: the skip of 41 R163 to R166 and 45 R293, R294. -/
def State.skipIf (s : State) (c : Bool) : State := if c then s.setPc (s.pc + 2) else s

end Sys2Proof.Machine
end

