-- ==== Sys2Proof/Machine/Display.lean ====
section
/-! DEFINITION. The framebuffer, the sprite engine and the display instructions (spec 44 R260 to R267). -/

namespace Sys2Proof.Machine

/-- `fb[r][c]`, the pixel at row r and column c: bit 63 − c of row r (10 R42, R43). -/
def pixelAt (f : Framebuffer) (r : Fin 32) (c : Fin 64) : Bool := f[r.val].getLsbD (63 - c.val)

/-- The framebuffer with one pixel inverted. -/
def flipPixel (f : Framebuffer) (r : Fin 32) (c : Fin 64) : Framebuffer :=
  f.set r.val (f[r.val] ^^^ BitVec.twoPow 64 (63 - c.val))

/-- Pixel k of a sprite byte, left to right: bit 7 − k (R261; log 29). -/
def spriteBit (b : Byte) (k : Nat) : Bool := b.getLsbD (7 - k)

/-- The row sprite row dy reaches from start row cy (R264, R265). -/
def spriteRow (cy dy : Nat) : Fin 32 := Fin.ofNat 32 (cy + dy)

/-- The column sprite pixel k reaches from start column cx (R264, R265; log 13). -/
def spriteColumn (cx k : Nat) : Fin 64 := Fin.ofNat 64 (cx + k)

/-- The inner body of R266: pixel k of the byte for row r, over the framebuffer and the collision bit. -/
def drawPixel (cx : Nat) (b : Byte) (r : Fin 32) (acc : Framebuffer × Bool) (k : Nat) : Framebuffer × Bool :=
  if spriteBit b k then
    (flipPixel acc.1 r (spriteColumn cx k), acc.2 || pixelAt acc.1 r (spriteColumn cx k))
  else acc

/-- The inner loop of R266: the eight pixels of one sprite byte, in order. -/
def drawByte (cx : Nat) (b : Byte) (r : Fin 32) (acc : Framebuffer × Bool) : Framebuffer × Bool :=
  (List.range 8).foldl (drawPixel cx b r) acc

/-- The outer loop of R266: sprite rows dy, dy + 1, .... -/
def drawRows (cx cy : Nat) : Nat → List Byte → Framebuffer × Bool → Framebuffer × Bool
  | _, [], acc => acc
  | dy, b :: bs, acc => drawRows cx cy (dy + 1) bs (drawByte cx b (spriteRow cy dy) acc)

/-- `DRAW(fb, cx, cy, s)` (R266): the new framebuffer and the collision bit. -/
def draw (f : Framebuffer) (cx cy : Nat) (s : List Byte) : Framebuffer × Bool :=
  drawRows cx cy 0 s (f, false)

/-- The row mask of a sprite byte at start column cx (R267). -/
def spriteMask (cx : Nat) (b : Byte) : BitVec 64 := (b.setWidth 64 <<< 56).rotateRight (cx % 64)

/-- The row-mask form of DRAW (R267), row by row; `draw` is the definition and this the source's formulation. -/
def drawMasks (cx cy : Nat) : Nat → List Byte → Framebuffer × Bool → Framebuffer × Bool
  | _, [], acc => acc
  | dy, b :: bs, (f, col) =>
    let r := spriteRow cy dy
    let mask := spriteMask cx b
    let new := f[r.val] ^^^ mask
    drawMasks cx cy (dy + 1) bs (f.set r.val new, col || (new &&& mask) != mask)

/-- CLS (00E0), R260: every pixel off. -/
def execCls (s : State) : Host.Outcome State Fault Refusal :=
  .next (s.setFb (Vector.replicate 32 0))

/-- DRW Vx, Vy, n (DXYN), R262: the coordinates and the n sprite bytes at I are read, then the framebuffer and VF
are written (log 22). It completes at once (log 30). -/
def execDrw (x y : Reg) (n : Fin 16) (s : State) : Host.Outcome State Fault Refusal :=
  transact s <|
    match memRead s (encode (.drw x y n)) s.base n.val with
    | .ok bs =>
      let out := draw s.fb (s.getV x).toNat (s.getV y).toNat bs
      .ok ((s.setFb out.1).setV VF (flagByte out.2))
    | .error f => .error f

end Sys2Proof.Machine
end

