-- ==== Sys2Proof/Machine/Flow.lean ====
section
/-! DEFINITION. Control flow (spec 41 R160 to R167). On entry PC = pc0 + 2 (40 R143). Targets are not checked when
they are written; an out-of-range target faults at the next fetch (20 R82; log 24). -/

namespace Sys2Proof.Machine

/-- RET (00EE), R160: pop the call stack into PC; StackUnderflow when it is empty. -/
def execRet (s : State) : Host.Outcome State Fault Refusal :=
  transact s <|
    match popStack s (encode .ret) with
    | .ok (a, t) => .ok (t.setPc a)
    | .error f => .error f

/-- JP nnn (1NNN), R161. -/
def execJp (nnn : Word) (s : State) : Host.Outcome State Fault Refusal :=
  .next (s.setPc nnn)

/-- CALL nnn (2NNN), R162: push PC, the address after the CALL, and jump; StackOverflow when the stack is full. -/
def execCall (nnn : Word) (s : State) : Host.Outcome State Fault Refusal :=
  transact s <|
    match pushStack s (encode (.call nnn)) s.pc with
    | .ok t => .ok (t.setPc nnn)
    | .error f => .error f

/-- SE Vx, kk (3XKK), R163. -/
def execSeImm (x : Reg) (kk : Byte) (s : State) : Host.Outcome State Fault Refusal :=
  .next (s.skipIf (s.getV x == kk))

/-- SNE Vx, kk (4XKK), R164. -/
def execSneImm (x : Reg) (kk : Byte) (s : State) : Host.Outcome State Fault Refusal :=
  .next (s.skipIf (s.getV x != kk))

/-- SE Vx, Vy (5XY0), R165. -/
def execSeReg (x y : Reg) (s : State) : Host.Outcome State Fault Refusal :=
  .next (s.skipIf (s.getV x == s.getV y))

/-- SNE Vx, Vy (9XY0), R166. -/
def execSneReg (x y : Reg) (s : State) : Host.Outcome State Fault Refusal :=
  .next (s.skipIf (s.getV x != s.getV y))

/-- JP V0, nnn (BNNN), R167: the sum is not masked to 12 bits (log 24). -/
def execJpV0 (nnn : Word) (s : State) : Host.Outcome State Fault Refusal :=
  .next (s.setPc (nnn + zext16 (s.getV 0)))

end Sys2Proof.Machine
end

