-- ==== Sys2Proof/Machine/IndexMem.lean ====
section
/-! DEFINITION. The index register and the memory block instructions (spec 43 R230 to R235). The only addressing
mode is indirect through I. No rule here changes PC. -/

namespace Sys2Proof.Machine

/-- LD I, nnn (ANNN), R230. -/
def execLdI (nnn : Word) (s : State) : Host.Outcome State Fault Refusal :=
  .next (s.setI nnn)

/-- ADD I, Vx (FX1E), R231: modulo 65536, no flag (log 23). -/
def execAddIVx (x : Reg) (s : State) : Host.Outcome State Fault Refusal :=
  .next (s.setI (s.i + zext16 (s.getV x)))

/-- LD F, Vx (FX29), R232. -/
def execLdFont (x : Reg) (s : State) : Host.Outcome State Fault Refusal :=
  .next (s.setI (fontAddress (s.getV x)))

/-- LD B, Vx (FX33), R233: the three decimal digits at I, I+1, I+2. -/
def execLdBcd (x : Reg) (s : State) : Host.Outcome State Fault Refusal :=
  transact s (memWrite s (encode (.ldBcd x)) s.base (bcdDigits (s.getV x)))

/-- LD [I], Vx (FX55), R234: V0 to Vx at I to I+x, then I as LS_INCREMENT_I says. -/
def execStoreRegs (x : Reg) (s : State) : Host.Outcome State Fault Refusal :=
  transact s <|
    match memWrite s (encode (.storeRegs x)) s.base (s.regsUpTo x) with
    | .ok t => .ok (t.advanceI x)
    | .error f => .error f

/-- LD Vx, [I] (FX65), R235: V0 to Vx from I to I+x, then I as LS_INCREMENT_I says. -/
def execLoadRegs (x : Reg) (s : State) : Host.Outcome State Fault Refusal :=
  transact s <|
    match memRead s (encode (.loadRegs x)) s.base (x.val + 1) with
    | .ok bs => .ok ((s.setRegsFrom 0 bs).advanceI x)
    | .error f => .error f

end Sys2Proof.Machine
end

