-- ==== Sys2Proof/Machine/KeysTimers.lean ====
section
/-! DEFINITION. The key-skip, key-wait and timer instructions (spec 45 R293 to R298). -/

namespace Sys2Proof.Machine

/-- SKP Vx (EX9E), R293: skip if the key is pressed; the key stays pressed. -/
def execSkp (x : Reg) (s : State) : Host.Outcome State Fault Refusal :=
  transact s <|
    match s.keyTest (encode (.skp x)) (s.getV x) with
    | .ok down => .ok (s.skipIf down)
    | .error f => .error f

/-- SKNP Vx (EXA1), R294: skip if the key is not pressed. -/
def execSknp (x : Reg) (s : State) : Host.Outcome State Fault Refusal :=
  transact s <|
    match s.keyTest (encode (.sknp x)) (s.getV x) with
    | .ok down => .ok (s.skipIf (!down))
    | .error f => .error f

/-- LD Vx, DT (FX07), R295. -/
def execLdVxDt (x : Reg) (s : State) : Host.Outcome State Fault Refusal :=
  .next (s.setV x s.dt)

/-- LD Vx, K (FX0A), R296: the lowest pressed key, or PC back to this instruction when no key is pressed. It
completes on any pressed key, held or new (log 26). -/
def execLdVxKey (x : Reg) (s : State) : Host.Outcome State Fault Refusal :=
  match s.firstPressed with
  | some k => .next (s.setV x (BitVec.ofNat 8 k.val))
  | none => .next (s.setPc (s.pc - 2))

/-- LD DT, Vx (FX15), R297. -/
def execLdDtVx (x : Reg) (s : State) : Host.Outcome State Fault Refusal :=
  .next (s.setDt (s.getV x))

/-- LD ST, Vx (FX18), R298. -/
def execLdStVx (x : Reg) (s : State) : Host.Outcome State Fault Refusal :=
  .next (s.setSt (s.getV x))

end Sys2Proof.Machine
end

