-- ==== Sys2Proof/Machine/Step.lean ====
section
/-! DEFINITION. The STEP operation (spec 40 R140 to R148) and where a test places the next instruction word. -/

namespace Sys2Proof.Machine

/-- STEP (R140). A faulted machine does nothing (R141). Otherwise: fetch with its range check (R142), PC advanced by
2 (R143), decode (R144), execute. A fault is delivered by `takeFault` (R322), so STEP always completes with a next
state (R147; log 1). -/
def step (s : State) : Host.Outcome State Fault Refusal :=
  match s.status with
  | .faulted _ => .next s
  | .running =>
    match fetchInstr s with
    | .error f => takeFault s.pc f s
    | .ok i => exec i s.advancePc

/-- The state with an instruction word stored where `step` fetches its next instruction: the two bytes at PC, high
byte first (20 R77), and the status Running that the fetch needs (log 32). Where PC is out of the fetch range
nothing is stored. -/
def State.withFetchWord (s : State) (nbits w : Nat) : State :=
  if s.pc.toNat + 1 < s.cfg.memSize then
    (s.writeBytes s.pc.toNat [highByte (tableWord nbits w), lowByte (tableWord nbits w)]).setStatus .running
  else s.setStatus .running

end Sys2Proof.Machine
end

