-- ==== Sys2Proof/Machine/HostOps.lean ====
section
/-! DEFINITION. The host's operations beside STEP (spec 00 R7): LOAD, TICK, SET_KEYS, PIXEL, STATUS and SOUND, each
atomic (R7, R84; log 18), and `perform`, which runs any of the seven. -/

namespace Sys2Proof.Machine

/-- The longest legal ROM: MEM_SIZE − 0x200 bytes (70 R362). -/
def romLimit (c : Config) : Nat := c.memSize - 0x200

/-- LOAD(rom) (70 R362): the reset by ROM load and the only return from a fault (60 R323). All machine state is
reset and the ROM copied to 0x200; the framebuffer and the keypad keep their values (R363; log 15). The random
oracle is no state of the machine (10 R30), so its count of draws goes on (log 3). A ROM too long is refused with
RomTooLarge and no state change. -/
def load (rom : List Byte) (s : State) : Except Fault State :=
  if romLimit s.cfg < rom.length then .error (.romTooLarge rom.length (romLimit s.cfg))
  else .ok { s with
    v := Vector.replicate 16 0
    i := 0
    pc := 0x200
    dt := 0
    st := 0
    stack := []
    mem := Memory.writeAll s.cfg [] 0x200 rom
    status := .running }

/-- A timer counted down by 1, stopping at 0 (60 R340). -/
def countDown (t : Byte) : Byte := if t = 0 then 0 else t - 1

/-- TICK() (60 R340): both timers count down, whatever the status is (log 17). -/
def tick (s : State) : State := (s.setDt (countDown s.dt)).setSt (countDown s.st)

/-- SET_KEYS(k) (45 R290): all 16 flags at once, whatever the status is. -/
def setKeys (k : Keypad) (s : State) : State := s.setKey k

/-- PIXEL(x, y) (44 R268): the pixel at column x, row y; a query outside 64 × 32 is refused (log 20). -/
def pixel (x y : Nat) (s : State) : Except Refusal Bool :=
  if h : x < 64 ∧ y < 32 then .ok (pixelAt s.fb ⟨y, h.2⟩ ⟨x, h.1⟩)
  else .error (.pixelOutOfRange x y)

/-- STATUS() (60 R329). -/
def readStatus (s : State) : RunStatus := s.status

/-- SOUND() (60 R342): whether ST ≠ 0. -/
def sound (s : State) : Bool := s.st != 0

/-- The kinds numbered 1 to 8 in the order of R320, for reporting only (log 38). -/
def Fault.code : Fault → Nat
  | .unrecognizedOpcode _ _ => 1
  | .stackOverflow _ _ => 2
  | .stackUnderflow _ _ => 3
  | .romTooLarge _ _ => 4
  | .fetchOutOfRange _ => 5
  | .memoryOutOfRange _ _ _ => 6
  | .reservedWrite _ _ _ => 7
  | .keyIndexOutOfRange _ _ _ => 8

/-- The seven operations of R7 with their arguments. -/
inductive HostOp where
  | load (rom : List Byte)
  | step
  | tick
  | setKeys (k : Keypad)
  | pixel (x y : Nat)
  | status
  | sound
  deriving DecidableEq, Repr

/-- What an operation returns to the host (R7). -/
inductive Reply where
  /-- LOAD and STEP: ok. -/
  | ok
  /-- LOAD and STEP: the fault with its record. -/
  | fault (f : Fault)
  /-- TICK and SET_KEYS: nothing. -/
  | none
  /-- PIXEL and SOUND. -/
  | bool (b : Bool)
  /-- STATUS. -/
  | status (r : RunStatus)
  /-- PIXEL out of range: no value. -/
  | refused (r : Refusal)
  deriving DecidableEq, Repr

/-- What STEP returns (40 R140, R141; 60 R322), read from the status it leaves: the fault it raised or keeps, else
ok (log 1). -/
def stepReply (s : State) : Reply :=
  match s.status with
  | .running => .ok
  | .faulted f => .fault f

/-- One host operation: the state after it and what it returns (R7). `step` always answers a next state, so its
other outcomes, kept here for totality, do not arise. -/
def perform (op : HostOp) (s : State) : State × Reply :=
  match op with
  | .load rom =>
    match Sys2Proof.Machine.load rom s with
    | .ok t => (t, .ok)
    | .error f => (s, .fault f)
  | .step =>
    match Sys2Proof.Machine.step s with
    | .next t => (t, stepReply t)
    | .fault f => (s, .fault f)
    | .refused r => (s, .refused r)
  | .tick => (Sys2Proof.Machine.tick s, .none)
  | .setKeys k => (Sys2Proof.Machine.setKeys k s, .none)
  | .pixel x y =>
    match Sys2Proof.Machine.pixel x y s with
    | .ok b => (s, .bool b)
    | .error r => (s, .refused r)
  | .status => (s, .status (readStatus s))
  | .sound => (s, .bool (Sys2Proof.Machine.sound s))

/-- A schedule: host operations one after another, in any interleaving (60 R341, 70 R364). -/
def performAll : List HostOp → State → State
  | [], s => s
  | op :: ops, s => performAll ops (perform op s).1

end Sys2Proof.Machine
end

