-- ==== Sys2Proof/Safety.lean ====
section
/-! DEFINITION. The terms claims about the machine are stated in: what a step leaves unchanged, the invariants, the
ends of a run (spec 70 R369), the key-wait state (45 R299), and instruction words written as numbers (30 R101). -/

namespace Sys2Proof.Machine

/-! ### Outcomes and frames -/

/-- The machine goes on, with a next state of which `P` holds. -/
def Yields (o : Host.Outcome State Fault Refusal) (P : State → Prop) : Prop := ∃ t, o = .next t ∧ P t

/-- The pieces of state (10 R30 and the model's two own fields). -/
inductive Part where
  | cfg | v | i | pc | dt | st | stack | mem | fb | key | status | draws
  deriving DecidableEq, Repr

/-- A piece of state is as it was. Memory is compared through the read of each byte, at every address. -/
def Part.Same (s t : State) : Part → Prop
  | .cfg => t.cfg = s.cfg
  | .v => ∀ r, t.getV r = s.getV r
  | .i => t.i = s.i
  | .pc => t.pc = s.pc
  | .dt => t.dt = s.dt
  | .st => t.st = s.st
  | .stack => t.stack = s.stack
  | .mem => ∀ a, t.readByte a = s.readByte a
  | .fb => t.fb = s.fb
  | .key => t.key = s.key
  | .status => t.status = s.status
  | .draws => t.draws = s.draws

/-- Every piece of state but the named ones is as it was. -/
def KeepsAllBut (changed : List Part) (s t : State) : Prop := ∀ p, p ∉ changed → p.Same s t

/-- The machine goes on with V[x] = b and nothing else changed: no other register, no byte of memory, no other
field. -/
def WritesOnlyV (o : Host.Outcome State Fault Refusal) (s : State) (x : Reg) (b : Byte) : Prop :=
  Yields o fun t => t.getV x = b ∧ (∀ r, r ≠ x → t.getV r = s.getV r) ∧ KeepsAllBut [.v] s t

/-- The machine goes on with result r in V[x] and flag f in VF where x ≠ 0xF, with VF = `both` where x = 0xF, and
nothing else changed (42 R196 to R200, R203). -/
def WritesResultAndFlag (o : Host.Outcome State Fault Refusal) (s : State) (x : Reg) (r f both : Byte) : Prop :=
  Yields o fun t =>
    (x ≠ VF → t.getV x = r ∧ t.getV VF = f) ∧ (x = VF → t.getV VF = both) ∧
    (∀ q, q ≠ x → q ≠ VF → t.getV q = s.getV q) ∧ KeepsAllBut [.v] s t

/-- The machine goes on with PC = a and nothing else changed. -/
def WritesOnlyPc (o : Host.Outcome State Fault Refusal) (s : State) (a : Word) : Prop :=
  Yields o fun t => t.pc = a ∧ KeepsAllBut [.pc] s t

/-- The machine goes on with I = a and nothing else changed. -/
def WritesOnlyI (o : Host.Outcome State Fault Refusal) (s : State) (a : Word) : Prop :=
  Yields o fun t => t.i = a ∧ KeepsAllBut [.i] s t

/-- The state after an instruction raised f, from the state it executed in, whose PC is pc0 + 2: everything as it was
before the STEP, PC = pc0, and the status Faulted (40 R145, 60 R322). -/
def faultedAt (s : State) (f : Fault) : State := { s with pc := s.pc - 2, status := .faulted f }

/-! ### Instruction words as numbers (30 R101, R106) -/

/-- The word c NNN. -/
def wordNNN (c : Nat) (nnn : Word) : Word := BitVec.ofNat 16 (0x1000 * c + nnn.toNat)

/-- The word c X KK. -/
def wordXKK (c : Nat) (x : Reg) (kk : Nat) : Word := BitVec.ofNat 16 (0x1000 * c + 0x100 * x.val + kk)

/-- The word c X Y N. -/
def wordXYN (c : Nat) (x y : Reg) (n : Nat) : Word :=
  BitVec.ofNat 16 (0x1000 * c + 0x100 * x.val + 0x10 * y.val + n)

/-! ### Running, faulted and waiting -/

/-- The next STEP executes instruction i: the machine is running and the word at PC decodes to i. -/
def State.runs (s : State) (i : Instr) : Prop := s.status = .running ∧ fetchInstr s = .ok i

/-- A bad end (70 R369 a). -/
def BadEnd (s : State) : Prop := ∃ f, s.status = .faulted f

/-- A good end at halt address p (70 R369 b; log 35): running, at a jump to itself, which `1ppp` is for p of
12 bits. -/
abbrev GoodEnd (s : State) (p : Word) : Prop :=
  s.status = .running ∧ s.pc = p ∧ p.toNat ≤ 0xFFF ∧ p.toNat + 1 < s.cfg.memSize ∧
  wordOfBytes (s.readByte p.toNat) (s.readByte (p.toNat + 1)) = 0x1000 ||| p

/-- WAIT(p) of the key-wait machine (45 R299), at an FX0A of register x. -/
abbrev Waiting (s : State) (p : Word) (x : Reg) : Prop :=
  s.status = .running ∧ s.pc = p ∧ fetchInstr s = .ok (.ldVxKey x)

/-- The address of the faulting instruction in a STEP's fault record (60 R321). -/
def Fault.address : Fault → Option Word
  | .unrecognizedOpcode pc0 _ => some pc0
  | .stackOverflow pc0 _ => some pc0
  | .stackUnderflow pc0 _ => some pc0
  | .romTooLarge _ _ => none
  | .fetchOutOfRange pc0 => some pc0
  | .memoryOutOfRange pc0 _ _ => some pc0
  | .reservedWrite pc0 _ _ => some pc0
  | .keyIndexOutOfRange pc0 _ _ => some pc0

/-! ### Tables over the instructions -/

/-- The registers an instruction may write (10 R33). -/
def writesReg (r : Reg) : Instr → Prop
  | .ldImm x _ | .addImm x _ | .ldReg x _ | .orReg x _ | .andReg x _ | .xorReg x _ | .rnd x _ => r = x
  | .addReg x _ | .subReg x _ | .shr x _ | .subnReg x _ | .shl x _ => r = x ∨ r = VF
  | .drw _ _ _ => r = VF
  | .ldVxDt x | .ldVxKey x => r = x
  | .loadRegs x => r ≤ x
  | .cls | .ret | .jp _ | .call _ | .seImm _ _ | .sneImm _ _ | .seReg _ _ | .sneReg _ _ | .ldI _ | .jpV0 _
  | .skp _ | .sknp _ | .ldDtVx _ | .ldStVx _ | .addIVx _ | .ldFont _ | .ldBcd _ | .storeRegs _ => False

/-- PC after an instruction that raises no fault (10 R35), from the state it starts in, whose PC is pc0 + 2. -/
def pcAfter (i : Instr) (s : State) : Word :=
  match i with
  | .seImm x kk => if s.getV x = kk then s.pc0 + 4 else s.pc0 + 2
  | .sneImm x kk => if s.getV x ≠ kk then s.pc0 + 4 else s.pc0 + 2
  | .seReg x y => if s.getV x = s.getV y then s.pc0 + 4 else s.pc0 + 2
  | .sneReg x y => if s.getV x ≠ s.getV y then s.pc0 + 4 else s.pc0 + 2
  | .skp x => if s.keyTest (encode i) (s.getV x) = .ok true then s.pc0 + 4 else s.pc0 + 2
  | .sknp x => if s.keyTest (encode i) (s.getV x) = .ok false then s.pc0 + 4 else s.pc0 + 2
  | .jp nnn | .call nnn => nnn
  | .jpV0 nnn => BitVec.ofNat 16 (nnn.toNat + (s.getV 0).toNat)
  | .ret => s.stack.getLast?.getD 0
  | .ldVxKey _ => if s.firstPressed = none then s.pc0 else s.pc0 + 2
  | .cls | .ldImm _ _ | .addImm _ _ | .ldReg _ _ | .orReg _ _ | .andReg _ _ | .xorReg _ _ | .addReg _ _
  | .subReg _ _ | .shr _ _ | .subnReg _ _ | .shl _ _ | .ldI _ | .rnd _ _ | .drw _ _ _ | .ldVxDt _ | .ldDtVx _
  | .ldStVx _ | .addIVx _ | .ldFont _ | .ldBcd _ | .storeRegs _ | .loadRegs _ => s.pc0 + 2

/-- Some 1 bit of the n-byte sprite at I, drawn from column V[x] and row V[y], covers the pixel at row r, column c
(44 R261, R264, R265). -/
def Covers (s : State) (x y : Reg) (n : Nat) (r : Fin 32) (c : Fin 64) : Prop :=
  ∃ dy k : Nat, dy < n ∧ k < 8 ∧ (s.readByte (s.base + dy)).getLsbD (7 - k) = true ∧
    r.val = ((s.getV y).toNat + dy) % 32 ∧ c.val = ((s.getV x).toNat + k) % 64

/-! ### Invariants -/

/-- The invariant of the machine: the parameters have R8's types, memory is in its canonical form, the stack is
within its bound (10 R30, R41), and under PROTECT_RESERVED no byte below 0x200 has changed since reset (the
document's §3 invariant, 90 C7, 20 R73). -/
structure State.Inv (s : State) : Prop where
  cfg : s.cfg.wf
  mem : Memory.wf s.cfg s.mem
  stack : s.stack.length ≤ s.cfg.stackDepth
  reserved : s.cfg.protectReserved = true → ∀ a, a < 0x200 → s.readByte a = background s.cfg a

/-- With at most 4096 bytes of memory, PC is at most 0x10FE (10 R36) and a return address at most 4096, the
highest address after a fetch. -/
structure State.PcBounded (s : State) : Prop where
  memSize : s.cfg.memSize ≤ 4096
  pc : s.pc.toNat ≤ 0x10FE
  stack : ∀ a ∈ s.stack, a.toNat ≤ 4096

/-- A schedule in which nothing but TICK changes DT: no LOAD and no STEP of FX15 (60 R343). -/
def OnlyTicksChangeDt : List HostOp → State → Prop
  | [], _ => True
  | op :: ops, s =>
    (∀ rom, op ≠ .load rom) ∧ (op = .step → ∀ x, ¬ s.runs (.ldDtVx x)) ∧ OnlyTicksChangeDt ops (perform op s).1

/-- A schedule in which nothing but TICK changes ST: no LOAD and no STEP of FX18 (60 R343). -/
def OnlyTicksChangeSt : List HostOp → State → Prop
  | [], _ => True
  | op :: ops, s =>
    (∀ rom, op ≠ .load rom) ∧ (op = .step → ∀ x, ¬ s.runs (.ldStVx x)) ∧ OnlyTicksChangeSt ops (perform op s).1

end Sys2Proof.Machine
end

