-- ==== Sys2Proof/Certificates/Slice0/Obligations.lean ====
section
/-! DEFINITION. The statements about the machine, from the numbered rules of the spec. Where a statement rests on a
decision of the spec (92) or a choice of the model, its docstring says so and names the log entry. -/

open Sys2Proof Sys2Proof.Machine

/-! ### Encoding (30) -/

/-- Words written out from R106 decode to the instructions they stand for, in each family. The patterns are general
knowledge (log 4). -/
def Obligations.SampleWordsDecode : Prop :=
  decode 0x00E0 = .ok .cls ∧ decode 0x00EE = .ok .ret ∧ decode 0x1234 = .ok (.jp 0x234) ∧
  decode 0x2210 = .ok (.call 0x210) ∧ decode 0x3310 = .ok (.seImm 3 0x10) ∧ decode 0x5120 = .ok (.seReg 1 2) ∧
  decode 0x6A2B = .ok (.ldImm 10 0x2B) ∧ decode 0x83F6 = .ok (.shr 3 15) ∧ decode 0x8127 = .ok (.subnReg 1 2) ∧
  decode 0xB300 = .ok (.jpV0 0x300) ∧ decode 0xD125 = .ok (.drw 1 2 5) ∧ decode 0xE29E = .ok (.skp 2) ∧
  decode 0xF50A = .ok (.ldVxKey 5) ∧ decode 0xF433 = .ok (.ldBcd 4) ∧ decode 0xF065 = .ok (.loadRegs 0) ∧
  decode 0x0000 = .error (.unrecognized 0x0000) ∧ decode 0x5121 = .error (.unrecognized 0x5121) ∧
  decode 0x8008 = .error (.unrecognized 0x8008) ∧ decode 0xE09F = .error (.unrecognized 0xE09F)

/-- R100 to R106: for every well-formed instruction, decoding its bytes, whatever follows them, gives it back with
every operand and leaves what follows. -/
def Obligations.DecodeOfEncodeIsIdentity : Prop :=
  ∀ (i : Instr) (rest : List Byte), i.wellFormed = true →
    decodeBytes (encodeBytes i ++ rest) = .ok (i, rest)

/-- Each word has one meaning: what a word decodes to is well-formed and encodes to that word. -/
def Obligations.EncodeOfDecodeIsIdentity : Prop :=
  ∀ (w : Word) (i : Instr), decode w = .ok i → i.wellFormed = true ∧ encode i = w

/-- R104: a word that satisfies a row's mask and match decodes by that row, no word satisfies two rows, every other
word is Unrecognized, and executing it raises UnrecognizedOpcode. -/
def Obligations.DecodeFollowsOpcodeTable : Prop :=
  (∀ (w : Word) (r : OpcodeRow), r ∈ opcodeTable → w &&& r.mask = r.pattern → decode w = .ok (r.build w)) ∧
  (∀ (w : Word) (r q : OpcodeRow), r ∈ opcodeTable → q ∈ opcodeTable → w &&& r.mask = r.pattern →
    w &&& q.mask = q.pattern → r = q) ∧
  (∀ w : Word, (∀ r ∈ opcodeTable, w &&& r.mask ≠ r.pattern) →
    decode w = .error (.unrecognized w) ∧
    ∀ s : State, s.status = .running → s.pc.toNat + 1 < s.cfg.memSize →
      wordOfBytes (s.readByte s.pc.toNat) (s.readByte (s.pc.toNat + 1)) = w →
      step s = .next { s with status := .faulted (.unrecognizedOpcode s.pc w) })

/-- R107 (derived there): exactly the words it lists are Unrecognized. -/
def Obligations.UnrecognizedWordsAreThoseListed : Prop :=
  ∀ w : Word, decode w = .error (.unrecognized w) ↔
    (w.toNat / 0x1000 = 0x0 ∧ w.toNat ≠ 0x00E0 ∧ w.toNat ≠ 0x00EE) ∨
    ((w.toNat / 0x1000 = 0x5 ∨ w.toNat / 0x1000 = 0x9) ∧ w.toNat % 0x10 ≠ 0) ∨
    (w.toNat / 0x1000 = 0x8 ∧ w.toNat % 0x10 ∈ [0x8, 0x9, 0xA, 0xB, 0xC, 0xD, 0xF]) ∨
    (w.toNat / 0x1000 = 0xE ∧ w.toNat % 0x100 ∉ [0x9E, 0xA1]) ∨
    (w.toNat / 0x1000 = 0xF ∧
      w.toNat % 0x100 ∉ [0x07, 0x0A, 0x15, 0x18, 0x1E, 0x29, 0x33, 0x55, 0x65])

/-! ### The STEP cycle (40, 60) -/

/-- R140, R142, R143: on a running machine whose two bytes at PC decode to i, STEP executes i with PC advanced by 2
first, and nothing else around it. -/
def Obligations.StepRunsTheDecodedInstruction : Prop :=
  ∀ (s : State) (i : Instr), s.status = .running → s.pc.toNat + 1 < s.cfg.memSize →
    decodeBytes [s.readByte s.pc.toNat, s.readByte (s.pc.toNat + 1)] = .ok (i, []) →
    step s = exec i { s with pc := s.pc + 2 }

/-- R141 (the spec's decision D12; log 1): a STEP of a faulted machine changes no state and returns the same
fault. -/
def Obligations.FaultedStepRepeatsTheFault : Prop :=
  ∀ (s : State) (f : Fault), s.status = .faulted f → step s = .next s ∧ perform .step s = (s, .fault f)

/-- R82 (the spec's decision D7; log 10): a fetch with PC + 1 ≥ MEM_SIZE raises FetchOutOfRange(PC) with no other
effect. -/
def Obligations.FetchPastMemoryFaults : Prop :=
  ∀ s : State, s.status = .running → s.cfg.memSize ≤ s.pc.toNat + 1 →
    step s = .next { s with status := .faulted (.fetchOutOfRange s.pc) }

/-- R144: an Unrecognized word raises UnrecognizedOpcode(pc0, w). -/
def Obligations.UnrecognizedWordFaults : Prop :=
  ∀ (s : State) (w : Word), s.status = .running → s.pc.toNat + 1 < s.cfg.memSize →
    wordOfBytes (s.readByte s.pc.toNat) (s.readByte (s.pc.toNat + 1)) = w →
    decode w = .error (.unrecognized w) →
    step s = .next { s with status := .faulted (.unrecognizedOpcode s.pc w) } ∧
    perform .step s =
      ({ s with status := .faulted (.unrecognizedOpcode s.pc w) }, .fault (.unrecognizedOpcode s.pc w))

/-- R147: every STEP completes, from every state, and so does every instruction. A STEP of FX0A with no key pressed
sets PC back to pc0, so that the next STEP fetches the FX0A again; and no operation but SET_KEYS and LOAD gets the
program past it. -/
def Obligations.StepAlwaysCompletes : Prop :=
  (∀ s : State, ∃ t, step s = .next t) ∧ (∀ (i : Instr) (s : State), ∃ t, exec i s = .next t) ∧
  (∀ (s : State) (p : Word) (x : Reg), Waiting s p x → (∀ k : Reg, s.key[k.val] = false) →
    step s = .next s ∧
    ∀ op : HostOp, (∀ k, op ≠ .setKeys k) → (∀ rom, op ≠ .load rom) →
      Waiting (perform op s).1 p x ∧ (perform op s).1.key = s.key)

/-- A precise, reported fault, for every instruction and fault kind. The whole statement is the spec's decision D12 and
the model's log 1 (R14, R145, R322 put it into rules; the source does not say how much of a faulting instruction's
effect remains): a STEP that raises a fault leaves everything but the status as it was before the STEP, PC included; the
status is Faulted with the record, whose pc0 is that PC; the fault is returned to the host; and all this is a next
state of `step`. -/
def Obligations.FaultLeavesStateAsBefore : Prop :=
  ∀ (s t : State) (f : Fault), s.status = .running → step s = .next t → t.status = .faulted f →
    t = { s with status := .faulted f } ∧ f.address = some s.pc ∧ perform .step s = (t, .fault f)

/-- R146: STEP never changes DT or ST except through FX15 and FX18. The second clause, that TICK takes 1 from each timer,
not below 0, is R340, and that it does so in every state, Faulted and waiting included, is the spec's decision D19
(log 17). -/
def Obligations.StepNeverTicksTheTimers : Prop :=
  (∀ s t : State, step s = .next t →
    (t.dt ≠ s.dt → ∃ x, s.runs (.ldDtVx x)) ∧ (t.st ≠ s.st → ∃ x, s.runs (.ldStVx x))) ∧
  (∀ s : State, (perform .tick s).1.dt.toNat = s.dt.toNat - 1 ∧ (perform .tick s).1.st.toNat = s.st.toNat - 1)

/-- R323 (the spec's decision D12): only a LOAD that succeeds brings a faulted machine back to Running. -/
def Obligations.OnlyLoadEndsAFault : Prop :=
  ∀ (s : State) (op : HostOp) (f : Fault), s.status = .faulted f →
    ((perform op s).1.status = .faulted f ∨
      ∃ rom, op = .load rom ∧ rom.length ≤ s.cfg.memSize - 0x200 ∧ (perform op s).1.status = .running)

/-! ### Rules over every instruction (10) -/

/-- The "written by" column of R30: which instructions may change each piece of state. The parameters and the
keypad change by no instruction; the count of random draws (the model's field, log 3) by RND alone. -/
def Obligations.EachFieldIsWrittenOnlyByItsInstructions : Prop :=
  ∀ (i : Instr) (s t : State), exec i s = .next t →
    t.cfg = s.cfg ∧ t.key = s.key ∧
    (t.i ≠ s.i → (∃ n, i = .ldI n) ∨ (∃ x, i = .addIVx x) ∨ (∃ x, i = .ldFont x) ∨
      (s.cfg.lsIncrementI = true ∧ ∃ x, i = .storeRegs x ∨ i = .loadRegs x)) ∧
    (t.dt ≠ s.dt → ∃ x, i = .ldDtVx x) ∧ (t.st ≠ s.st → ∃ x, i = .ldStVx x) ∧
    (t.stack ≠ s.stack → i = .ret ∨ ∃ n, i = .call n) ∧
    ((∃ a, t.readByte a ≠ s.readByte a) → ∃ x, i = .ldBcd x ∨ i = .storeRegs x) ∧
    (t.fb ≠ s.fb → i = .cls ∨ ∃ x y n, i = .drw x y n) ∧
    (t.draws ≠ s.draws → ∃ x kk, i = .rnd x kk)

/-- R33 (derived there): an instruction changes no general register but the ones the table names. -/
def Obligations.RegistersAreWrittenOnlyAsListed : Prop :=
  ∀ (i : Instr) (s t : State) (r : Reg), exec i s = .next t → t.getV r ≠ s.getV r → writesReg r i

/-- R35 (derived there): PC after every instruction that raises no fault. -/
def Obligations.PcAfterEachInstruction : Prop :=
  ∀ (i : Instr) (s t : State), s.status = .running → exec i s = .next t → t.status = .running →
    t.pc = pcAfter i s

/-- R40, R48: no instruction reads the sound timer. Two states that differ in ST alone stay alike in everything
else. -/
def Obligations.SoundTimerAffectsNothingElse : Prop :=
  ∀ (i : Instr) (s t : State) (b : Byte), exec i s = .next t →
    ∃ u, exec i { s with st := b } = .next u ∧ u = { t with st := u.st }

/-! ### Invariants and reset (70) -/

/-- R360, R361 (the spec's decision D16; log 14): every piece of state at power-on, and the fault of a STEP before any
LOAD. The parameters are the defaults of R8 (log 2). -/
def Obligations.PowerOnState : Prop :=
  (∀ r, State.reset.getV r = 0) ∧ State.reset.i = 0 ∧ State.reset.pc = 0x200 ∧ State.reset.dt = 0 ∧
  State.reset.st = 0 ∧ State.reset.stack = [] ∧
  (∀ a, ∀ h : a < 80, State.reset.readByte a = State.reset.cfg.font[a]) ∧
  (∀ a, 80 ≤ a → State.reset.readByte a = 0) ∧
  (∀ r c, pixelAt State.reset.fb r c = false) ∧ (∀ k : Reg, State.reset.key[k.val] = false) ∧
  State.reset.status = .running ∧ State.reset.cfg = defaultConfig ∧
  step State.reset = .next { State.reset with status := .faulted (.unrecognizedOpcode 0x200 0x0000) }

/-- The invariant holds at power-on. -/
def Obligations.ResetMeetsInvariant : Prop := State.reset.Inv ∧ State.reset.PcBounded

/-- The invariant is kept by every STEP, from every state that has it: the parameters' types, the canonical form of
memory, the bound of the stack, and the reserved bytes unchanged (C7). -/
def Obligations.StepKeepsInvariant : Prop :=
  ∀ s t : State, s.Inv → step s = .next t → t.Inv

/-- Under any schedule of host operations the invariant holds throughout (R341, R364). -/
def Obligations.EveryScheduleKeepsInvariant : Prop :=
  ∀ (ops : List HostOp) (s : State), s.Inv → (performAll ops s).Inv

/-- R36 (derived there): with at most 4096 bytes of memory no STEP sets PC above 0x10FE. -/
def Obligations.StepKeepsPcBounded : Prop :=
  ∀ s t : State, s.PcBounded → step s = .next t → t.PcBounded

/-- R70 and log 33 (the model's representation): memories in canonical form that read alike are equal. -/
def Obligations.CanonicalMemoryIsDeterminedByItsReads : Prop :=
  ∀ (c : Config) (m n : Memory), Memory.wf c m → Memory.wf c n →
    (∀ a, Memory.read c m a = Memory.read c n a) → m = n

/-! ### Register loads, ALU and random (42) -/

/-- R190, R191, R192, R193, R194, R195: the loads, the add without a flag and the logic instructions write V[x],
x = 0xF included, and nothing else. -/
def Obligations.LoadsAndLogicWriteVx : Prop :=
  ∀ (s : State) (x y : Reg) (kk : Byte),
    (decode (wordXKK 0x6 x kk.toNat) = .ok (.ldImm x kk) ∧ WritesOnlyV (exec (.ldImm x kk) s) s x kk) ∧
    (decode (wordXKK 0x7 x kk.toNat) = .ok (.addImm x kk) ∧
      WritesOnlyV (exec (.addImm x kk) s) s x (BitVec.ofNat 8 (((s.getV x).toNat + kk.toNat) % 256))) ∧
    (decode (wordXYN 0x8 x y 0x0) = .ok (.ldReg x y) ∧
      WritesOnlyV (exec (.ldReg x y) s) s x (s.getV y)) ∧
    (decode (wordXYN 0x8 x y 0x1) = .ok (.orReg x y) ∧
      WritesOnlyV (exec (.orReg x y) s) s x (s.getV x ||| s.getV y)) ∧
    (decode (wordXYN 0x8 x y 0x2) = .ok (.andReg x y) ∧
      WritesOnlyV (exec (.andReg x y) s) s x (s.getV x &&& s.getV y)) ∧
    (decode (wordXYN 0x8 x y 0x3) = .ok (.xorReg x y) ∧
      WritesOnlyV (exec (.xorReg x y) s) s x (s.getV x ^^^ s.getV y))

/-- R196, R197: 8XY4 and 8XY5 write the sum or difference modulo 256 and VF as carry or no borrow; where x = 0xF and
VF_ORDER is DocumentOrder, VF is the flag. The other orders are VfWhenItIsTheDestination. -/
def Obligations.AddAndSubSetVf : Prop :=
  ∀ (s : State) (x y : Reg), s.cfg.vfOrder = .documentOrder ∨ x ≠ VF →
    (decode (wordXYN 0x8 x y 0x4) = .ok (.addReg x y) ∧
      WritesResultAndFlag (exec (.addReg x y) s) s x
        (BitVec.ofNat 8 (((s.getV x).toNat + (s.getV y).toNat) % 256))
        (if 255 < (s.getV x).toNat + (s.getV y).toNat then 1 else 0)
        (if 255 < (s.getV x).toNat + (s.getV y).toNat then 1 else 0)) ∧
    (decode (wordXYN 0x8 x y 0x5) = .ok (.subReg x y) ∧
      WritesResultAndFlag (exec (.subReg x y) s) s x
        (BitVec.ofNat 8 ((256 + (s.getV x).toNat - (s.getV y).toNat) % 256))
        (if (s.getV y).toNat ≤ (s.getV x).toNat then 1 else 0)
        (if (s.getV y).toNat ≤ (s.getV x).toNat then 1 else 0))

/-- R199 (its flag on a borrow is the spec's decision D35, log 28): 8XY7. -/
def Obligations.SubnSetsVf : Prop :=
  ∀ (s : State) (x y : Reg), s.cfg.vfOrder = .documentOrder ∨ x ≠ VF →
    decode (wordXYN 0x8 x y 0x7) = .ok (.subnReg x y) ∧
    WritesResultAndFlag (exec (.subnReg x y) s) s x
      (BitVec.ofNat 8 ((256 + (s.getV y).toNat - (s.getV x).toNat) % 256))
      (if (s.getV x).toNat ≤ (s.getV y).toNat then 1 else 0)
      (if (s.getV x).toNat ≤ (s.getV y).toNat then 1 else 0)

/-- R198, R200 (that any y decodes and is not read is the spec's decision D31, log 25): the shifts write half or
double V[x] and the bit shifted out to VF; where x = 0xF and VF_ORDER is DocumentOrder, VF is the result. -/
def Obligations.ShiftsSetVf : Prop :=
  ∀ (s : State) (x y : Reg), s.cfg.vfOrder = .documentOrder ∨ x ≠ VF →
    (decode (wordXYN 0x8 x y 0x6) = .ok (.shr x y) ∧
      WritesResultAndFlag (exec (.shr x y) s) s x
        (BitVec.ofNat 8 ((s.getV x).toNat / 2)) (BitVec.ofNat 8 ((s.getV x).toNat % 2))
        (BitVec.ofNat 8 ((s.getV x).toNat / 2))) ∧
    (decode (wordXYN 0x8 x y 0xE) = .ok (.shl x y) ∧
      WritesResultAndFlag (exec (.shl x y) s) s x
        (BitVec.ofNat 8 (2 * (s.getV x).toNat % 256)) (BitVec.ofNat 8 ((s.getV x).toNat / 128))
        (BitVec.ofNat 8 (2 * (s.getV x).toNat % 256)))

/-- R203 (the spec's decision D5, log 8): VF after 8FY4, 8FY5, 8FY6, 8FY7 and 8FYE, for each VF_ORDER. No other
register changes. -/
def Obligations.VfWhenItIsTheDestination : Prop :=
  ∀ (s : State) (y : Reg),
    let a := (s.getV VF).toNat
    let b := (s.getV y).toNat
    let flagFirst := fun (r f : Byte) => match s.cfg.vfOrder with
      | .documentOrder => r | .flagLast => f | .resultLast => r
    let resultFirst := fun (r f : Byte) => match s.cfg.vfOrder with
      | .documentOrder => f | .flagLast => f | .resultLast => r
    WritesOnlyV (exec (.addReg VF y) s) s VF
      (resultFirst (BitVec.ofNat 8 ((a + b) % 256)) (if 255 < a + b then 1 else 0)) ∧
    WritesOnlyV (exec (.subReg VF y) s) s VF
      (resultFirst (BitVec.ofNat 8 ((256 + a - b) % 256)) (if b ≤ a then 1 else 0)) ∧
    WritesOnlyV (exec (.shr VF y) s) s VF (flagFirst (BitVec.ofNat 8 (a / 2)) (BitVec.ofNat 8 (a % 2))) ∧
    WritesOnlyV (exec (.subnReg VF y) s) s VF
      (resultFirst (BitVec.ofNat 8 ((256 + b - a) % 256)) (if a ≤ b then 1 else 0)) ∧
    WritesOnlyV (exec (.shl VF y) s) s VF
      (flagFirst (BitVec.ofNat 8 (2 * a % 256)) (BitVec.ofNat 8 (a / 128)))

/-- R201 (freshness is the spec's decision D11; the oracle is a free value, log 3): RND writes the drawn byte under the
mask, whatever the draw, takes one draw, and has no bit outside kk. -/
def Obligations.RndMasksAFreshByte : Prop :=
  ∀ (s : State) (x : Reg) (kk : Byte),
    decode (wordXKK 0xC x kk.toNat) = .ok (.rnd x kk) ∧
    Yields (exec (.rnd x kk) s) fun t =>
      t.getV x = Config.randByte s.draws &&& kk ∧ t.getV x &&& ~~~kk = 0 ∧ t.draws = s.draws + 1 ∧
      (∀ r, r ≠ x → t.getV r = s.getV r) ∧ KeepsAllBut [.v, .draws] s t

/-! ### Control flow (41) -/

/-- R160: RET pops the stack into PC; on an empty stack it raises StackUnderflow with no other effect. -/
def Obligations.ReturnPopsTheStack : Prop :=
  decode 0x00EE = .ok .ret ∧
  (∀ (s : State) (rest : List Word) (a : Word), s.stack = rest ++ [a] →
    Yields (exec .ret s) fun t => t.pc = a ∧ t.stack = rest ∧ KeepsAllBut [.pc, .stack] s t) ∧
  (∀ s : State, s.stack = [] →
    exec .ret s = .next (faultedAt s (.stackUnderflow (s.pc - 2) 0x00EE)))

/-- R161: JP writes PC alone. -/
def Obligations.JumpSetsPc : Prop :=
  ∀ (s : State) (nnn : Word), nnn.toNat ≤ 0xFFF →
    decode (wordNNN 0x1 nnn) = .ok (.jp nnn) ∧ WritesOnlyPc (exec (.jp nnn) s) s nnn

/-- R162: CALL pushes the address after it and jumps; with STACK_DEPTH entries held it raises StackOverflow with no
other effect. PC on entry is pc0 + 2. -/
def Obligations.CallPushesAndJumps : Prop :=
  ∀ (s : State) (nnn : Word), nnn.toNat ≤ 0xFFF →
    decode (wordNNN 0x2 nnn) = .ok (.call nnn) ∧
    (s.stack.length < s.cfg.stackDepth →
      Yields (exec (.call nnn) s) fun t =>
        t.pc = nnn ∧ t.stack = s.stack ++ [s.pc] ∧ KeepsAllBut [.pc, .stack] s t) ∧
    (s.stack.length = s.cfg.stackDepth →
      exec (.call nnn) s =
        .next (faultedAt s
          (.stackOverflow (s.pc - 2) (wordNNN 0x2 nnn))))

/-- R168 (derived there): after a CALL that succeeds, a RET from any later state whose stack is again the one the CALL
left (the subroutine's calls and returns balanced) gives PC = pc0 + 2 and the stack as before the CALL. -/
def Obligations.ReturnUndoesCall : Prop :=
  ∀ (s t u : State) (nnn : Word), s.stack.length < s.cfg.stackDepth → exec (.call nnn) s = .next t →
    u.stack = t.stack →
    Yields (exec .ret u) fun v => v.pc = s.pc ∧ v.stack = s.stack ∧ KeepsAllBut [.pc, .stack] u v

/-- R163, R164, R165, R166: the skips add 2 to PC when their condition holds, and change nothing else. -/
def Obligations.SkipsFollowTheirConditions : Prop :=
  ∀ (s : State) (x y : Reg) (kk : Byte),
    (decode (wordXKK 0x3 x kk.toNat) = .ok (.seImm x kk) ∧
      WritesOnlyPc (exec (.seImm x kk) s) s (if s.getV x = kk then s.pc + 2 else s.pc)) ∧
    (decode (wordXKK 0x4 x kk.toNat) = .ok (.sneImm x kk) ∧
      WritesOnlyPc (exec (.sneImm x kk) s) s (if s.getV x ≠ kk then s.pc + 2 else s.pc)) ∧
    (decode (wordXYN 0x5 x y 0) = .ok (.seReg x y) ∧
      WritesOnlyPc (exec (.seReg x y) s) s (if s.getV x = s.getV y then s.pc + 2 else s.pc)) ∧
    (decode (wordXYN 0x9 x y 0) = .ok (.sneReg x y) ∧
      WritesOnlyPc (exec (.sneReg x y) s) s (if s.getV x ≠ s.getV y then s.pc + 2 else s.pc))

/-- R167 (that the sum is not masked is the spec's decision D30, log 24): BNNN adds V0, exactly. -/
def Obligations.ComputedJumpAddsV0 : Prop :=
  ∀ (s : State) (nnn : Word), nnn.toNat ≤ 0xFFF →
    decode (wordNNN 0xB nnn) = .ok (.jpV0 nnn) ∧
    Yields (exec (.jpV0 nnn) s) fun t =>
      t.pc.toNat = nnn.toNat + (s.getV 0).toNat ∧ t.pc.toNat ≤ 0x10FE ∧ KeepsAllBut [.pc] s t

/-! ### Index register and memory (43) -/

/-- R230, R232: ANNN writes nnn to I, and FX29 writes 5 × V[x], not masked. Nothing else changes. -/
def Obligations.IndexLoads : Prop :=
  ∀ (s : State) (x : Reg) (nnn : Word),
    (nnn.toNat ≤ 0xFFF →
      decode (wordNNN 0xA nnn) = .ok (.ldI nnn) ∧ WritesOnlyI (exec (.ldI nnn) s) s nnn) ∧
    decode (wordXKK 0xF x 0x29) = .ok (.ldFont x) ∧
    Yields (exec (.ldFont x) s) fun t => t.i.toNat = 5 * (s.getV x).toNat ∧ KeepsAllBut [.i] s t

/-- R231 (the wrap past 0xFFFF is the spec's decision D29, log 23): FX1E adds V[x] to I modulo 65536, without a
flag. -/
def Obligations.AddToIndexWraps : Prop :=
  ∀ (s : State) (x : Reg),
    decode (wordXKK 0xF x 0x1E) = .ok (.addIVx x) ∧
    WritesOnlyI (exec (.addIVx x) s) s (BitVec.ofNat 16 ((s.i.toNat + (s.getV x).toNat) % 65536))

/-- R233: FX33 writes the three decimal digits at I, I+1, I+2 where the checks allow it, and no other byte. Memory is in
its canonical form (StepKeepsInvariant). -/
def Obligations.BcdStoresThreeDigits : Prop :=
  ∀ (s : State) (x : Reg), Memory.wf s.cfg s.mem → s.base + 2 < s.cfg.memSize →
    (s.cfg.protectReserved = true → 0x200 ≤ s.base) →
    decode (wordXKK 0xF x 0x33) = .ok (.ldBcd x) ∧
    Yields (exec (.ldBcd x) s) fun t =>
      (t.readByte s.base).toNat = (s.getV x).toNat / 100 ∧
      (t.readByte (s.base + 1)).toNat = (s.getV x).toNat / 10 % 10 ∧
      (t.readByte (s.base + 2)).toNat = (s.getV x).toNat % 10 ∧
      (∀ a, a < s.base ∨ s.base + 2 < a → t.readByte a = s.readByte a) ∧ KeepsAllBut [.mem] s t

/-- R234 (I unchanged by default is the spec's decision D6, log 9): FX55 writes V0 to Vx at I to I+x where the checks
allow it, and no other byte; I advances only under LS_INCREMENT_I. -/
def Obligations.StoreRegistersWritesTheBlock : Prop :=
  ∀ (s : State) (x : Reg), Memory.wf s.cfg s.mem → s.base + x.val < s.cfg.memSize →
    (s.cfg.protectReserved = true → 0x200 ≤ s.base) →
    decode (wordXKK 0xF x 0x55) = .ok (.storeRegs x) ∧
    Yields (exec (.storeRegs x) s) fun t =>
      (∀ k : Reg, k ≤ x → t.readByte (s.base + k.val) = s.getV k) ∧
      (∀ a, a < s.base ∨ s.base + x.val < a → t.readByte a = s.readByte a) ∧
      t.i = (if s.cfg.lsIncrementI then s.i + BitVec.ofNat 16 (x.val + 1) else s.i) ∧
      KeepsAllBut [.mem, .i] s t

/-- R235 (I unchanged by default is the spec's decision D6, log 9): FX65 reads V0 to Vx from I to I+x, below 0x200 too;
no other register changes and memory does not. -/
def Obligations.LoadRegistersReadsTheBlock : Prop :=
  ∀ (s : State) (x : Reg), s.base + x.val < s.cfg.memSize →
    decode (wordXKK 0xF x 0x65) = .ok (.loadRegs x) ∧
    Yields (exec (.loadRegs x) s) fun t =>
      (∀ k : Reg, k ≤ x → t.getV k = s.readByte (s.base + k.val)) ∧
      (∀ k : Reg, x < k → t.getV k = s.getV k) ∧
      t.i = (if s.cfg.lsIncrementI then s.i + BitVec.ofNat 16 (x.val + 1) else s.i) ∧
      KeepsAllBut [.v, .i] s t

/-- R80 (the spec's decision D7, log 10) and R148: an access by FX33, FX55, FX65 or DXYN that reaches past memory raises
MemoryOutOfRange with the lowest failing address and has no other effect; it comes before the reserved-write
check. -/
def Obligations.AccessPastMemoryFaults : Prop :=
  ∀ (s : State) (x y : Reg) (n : Fin 16),
    (s.cfg.memSize < s.base + 3 →
      exec (.ldBcd x) s = .next (faultedAt s
          (.memoryOutOfRange (s.pc - 2) (wordXKK 0xF x 0x33) (max s.base s.cfg.memSize)))) ∧
    (s.cfg.memSize < s.base + (x.val + 1) →
      exec (.storeRegs x) s = .next (faultedAt s
          (.memoryOutOfRange (s.pc - 2) (wordXKK 0xF x 0x55) (max s.base s.cfg.memSize))) ∧
      exec (.loadRegs x) s = .next (faultedAt s
          (.memoryOutOfRange (s.pc - 2) (wordXKK 0xF x 0x65) (max s.base s.cfg.memSize)))) ∧
    (n ≠ 0 → s.cfg.memSize < s.base + n.val →
      exec (.drw x y n) s = .next (faultedAt s
          (.memoryOutOfRange (s.pc - 2) (wordXYN 0xD x y n.val) (max s.base s.cfg.memSize))))

/-- R81 (the spec's decision D8, log 11): under PROTECT_RESERVED a store by FX33 or FX55 that starts below 0x200, inside
memory, raises ReservedWrite with its lowest address and has no other effect. -/
def Obligations.StoreBelowProgramAreaFaults : Prop :=
  ∀ (s : State) (x : Reg), s.cfg.protectReserved = true → s.base < 0x200 →
    (s.base + 3 ≤ s.cfg.memSize →
      exec (.ldBcd x) s = .next (faultedAt s
          (.reservedWrite (s.pc - 2) (wordXKK 0xF x 0x33) s.base))) ∧
    (s.base + (x.val + 1) ≤ s.cfg.memSize →
      exec (.storeRegs x) s = .next (faultedAt s
          (.reservedWrite (s.pc - 2) (wordXKK 0xF x 0x55) s.base)))

/-- R87 (the spec's decision D33, log 27): bytes stored by FX55 over the next instruction are what the very next fetch
reads. -/
def Obligations.FetchSeesTheStore : Prop :=
  ∀ (s t : State) (x : Reg), Memory.wf s.cfg s.mem → s.status = .running → 1 ≤ x.val →
    s.pc.toNat = s.base → exec (.storeRegs x) s = .next t → t.status = .running →
    fetch t = .ok (wordOfBytes (s.getV 0) (s.getV 1))

/-! ### Display (44) -/

/-- R260: CLS turns every pixel off and changes nothing else. -/
def Obligations.ClearScreenTurnsAllPixelsOff : Prop :=
  decode 0x00E0 = .ok .cls ∧
  ∀ s : State, Yields (exec .cls s) fun t => (∀ r c, pixelAt t.fb r c = false) ∧ KeepsAllBut [.fb] s t

/-- R261 to R266 (the start column mod 64, the operand order and the bit order are the spec's decisions D10, D27 and
D37; logs 13, 22, 29): DXYN inverts exactly the pixels its 1 bits cover, with wraparound on both axes, and VF is 1
exactly when one of them was on. -/
def Obligations.DrawXorsTheSprite : Prop :=
  ∀ (s : State) (x y : Reg) (n : Fin 16), n = 0 ∨ s.base + n.val ≤ s.cfg.memSize →
    decode (wordXYN 0xD x y n.val) = .ok (.drw x y n) ∧
    Yields (exec (.drw x y n) s) fun t =>
      (∀ r c, (Covers s x y n.val r c → pixelAt t.fb r c = !pixelAt s.fb r c) ∧
        (¬ Covers s x y n.val r c → pixelAt t.fb r c = pixelAt s.fb r c)) ∧
      ((∃ r c, Covers s x y n.val r c ∧ pixelAt s.fb r c = true) → t.getV VF = 1) ∧
      ((¬ ∃ r c, Covers s x y n.val r c ∧ pixelAt s.fb r c = true) → t.getV VF = 0) ∧
      (∀ r, r ≠ VF → t.getV r = s.getV r) ∧ KeepsAllBut [.v, .fb] s t

/-- R267 (derived there): the row-mask form gives the same framebuffer and collision bit as the pixel loops of R266. -/
def Obligations.DrawEqualsRowMaskForm : Prop :=
  ∀ (f : Framebuffer) (cx cy : Nat) (bs : List Byte), draw f cx cy bs = drawMasks cx cy 0 bs (f, false)

/-- The document's §8 property (95 S5), for every sprite and position: drawing again at the same place restores the
framebuffer, and from a blank screen the first draw does not collide while the second collides exactly when the
sprite has a 1 bit. -/
def Obligations.DrawingTwiceRestoresTheScreen : Prop :=
  ∀ (s t u v : State) (x y : Reg) (n : Fin 16), n = 0 ∨ s.base + n.val ≤ s.cfg.memSize →
    exec (.drw x y n) s = .next t → u = { t with v := s.v } → exec (.drw x y n) u = .next v →
    v.fb = s.fb ∧
    ((∀ r c, pixelAt s.fb r c = false) → t.getV VF = 0 ∧
      (v.getV VF = 1 ↔ ∃ r c, Covers s x y n.val r c))

/-- R266 (derived there): no pixel is touched twice in one DRAW. -/
def Obligations.NoPixelIsTouchedTwice : Prop :=
  ∀ (cx cy dy dy' k k' : Nat), dy < 15 → dy' < 15 → k < 8 → k' < 8 →
    spriteRow cy dy = spriteRow cy dy' → spriteColumn cx k = spriteColumn cx k' → dy = dy' ∧ k = k'

/-- R268, R329, R342 (the refusal and the two added queries are the spec's decisions D24, D12 and D22; logs 20, 37):
PIXEL, STATUS and SOUND return what they name, whatever the status, and change no state. -/
def Obligations.QueriesChangeNothing : Prop :=
  ∀ (s : State),
    (∀ (c : Fin 64) (r : Fin 32), perform (.pixel c.val r.val) s = (s, .bool (pixelAt s.fb r c))) ∧
    (∀ x y : Nat, 64 ≤ x ∨ 32 ≤ y → perform (.pixel x y) s = (s, .refused (.pixelOutOfRange x y))) ∧
    perform .status s = (s, .status s.status) ∧ perform .sound s = (s, .bool (decide (s.st ≠ 0)))

/-! ### Keypad and timers (45, 60) -/

/-- R290, R291: SET_KEYS writes all 16 flags and nothing else, whatever the status; `first_pressed` is the lowest
pressed index, or none. -/
def Obligations.SetKeysAndFirstPressed : Prop :=
  (∀ (s : State) (k : Keypad), perform (.setKeys k) s = ({ s with key := k }, .none)) ∧
  (∀ (s : State) (k : Reg), s.firstPressed = some k ↔
    s.key[k.val] = true ∧ ∀ j : Reg, j < k → s.key[j.val] = false) ∧
  (∀ s : State, s.firstPressed = none ↔ ∀ k : Reg, s.key[k.val] = false)

/-- R292 to R294 in KeyIndexed mode (the mode and its fault are the spec's decision D9, log 12): SKP and SKNP test key
V[x]; with V[x] ≥ 16 both raise KeyIndexOutOfRange with no other effect. -/
def Obligations.KeySkipsByIndex : Prop :=
  ∀ (s : State) (x : Reg), s.cfg.keySkipMode = .keyIndexed →
    decode (wordXKK 0xE x 0x9E) = .ok (.skp x) ∧ decode (wordXKK 0xE x 0xA1) = .ok (.sknp x) ∧
    (∀ k : Reg, (s.getV x).toNat = k.val →
      WritesOnlyPc (exec (.skp x) s) s (if s.key[k.val] = true then s.pc + 2 else s.pc) ∧
      WritesOnlyPc (exec (.sknp x) s) s (if s.key[k.val] = false then s.pc + 2 else s.pc)) ∧
    (16 ≤ (s.getV x).toNat →
      exec (.skp x) s = .next (faultedAt s
          (.keyIndexOutOfRange (s.pc - 2) (wordXKK 0xE x 0x9E) (s.getV x))) ∧
      exec (.sknp x) s = .next (faultedAt s
          (.keyIndexOutOfRange (s.pc - 2) (wordXKK 0xE x 0xA1) (s.getV x))))

/-- R292 to R294 in FirstPressed mode (the spec's decision D9, log 12): SKP skips when V[x] is the lowest pressed key,
SKNP when it is not, no key pressed included; neither faults. -/
def Obligations.KeySkipsByFirstPressed : Prop :=
  ∀ (s : State) (x : Reg), s.cfg.keySkipMode = .firstPressed →
    WritesOnlyPc (exec (.skp x) s) s
      (if s.firstPressed.map (fun k => k.val) = some (s.getV x).toNat then s.pc + 2 else s.pc) ∧
    WritesOnlyPc (exec (.sknp x) s) s
      (if s.firstPressed.map (fun k => k.val) ≠ some (s.getV x).toNat then s.pc + 2 else s.pc)

/-- R296 (that a held key completes it is the spec's decision D32, log 26): FX0A writes the lowest pressed key's index to
V[x]; with no key pressed its only effect is PC back by 2. -/
def Obligations.KeyWaitTakesTheLowestKey : Prop :=
  ∀ (s : State) (x : Reg),
    decode (wordXKK 0xF x 0x0A) = .ok (.ldVxKey x) ∧
    (∀ k : Reg, s.key[k.val] = true → (∀ j : Reg, j < k → s.key[j.val] = false) →
      WritesOnlyV (exec (.ldVxKey x) s) s x (BitVec.ofNat 8 k.val)) ∧
    ((∀ k : Reg, s.key[k.val] = false) → WritesOnlyPc (exec (.ldVxKey x) s) s (s.pc - 2))

/-- R299 (derived there): the transitions of the key-wait machine. WAIT(p) is left only by a STEP with a key pressed, to
p + 2 with the key in V[x], or by LOAD. -/
def Obligations.KeyWaitStateMachine : Prop :=
  ∀ (s : State) (p : Word) (x : Reg), Waiting s p x →
    (s.firstPressed = none → step s = .next s) ∧
    (∀ k, s.firstPressed = some k → Yields (step s) fun t =>
      t.pc = p + 2 ∧ t.status = .running ∧ t.getV x = BitVec.ofNat 8 k.val ∧
      (∀ r, r ≠ x → t.getV r = s.getV r) ∧ KeepsAllBut [.pc, .v] s t) ∧
    (∀ k, Waiting (perform (.setKeys k) s).1 p x ∧ (perform (.setKeys k) s).1.key = k) ∧
    (Waiting (perform .tick s).1 p x ∧ (perform .tick s).1.dt.toNat = s.dt.toNat - 1 ∧
      (perform .tick s).1.st.toNat = s.st.toNat - 1) ∧
    (∀ rom, rom.length ≤ s.cfg.memSize - 0x200 → (perform (.load rom) s).1.pc = 0x200)

/-- R295, R297, R298: FX07 reads DT, FX15 writes DT, FX18 writes ST, and nothing else changes. -/
def Obligations.TimerInstructions : Prop :=
  ∀ (s : State) (x : Reg),
    (decode (wordXKK 0xF x 0x07) = .ok (.ldVxDt x) ∧ WritesOnlyV (exec (.ldVxDt x) s) s x s.dt) ∧
    (decode (wordXKK 0xF x 0x15) = .ok (.ldDtVx x) ∧
      Yields (exec (.ldDtVx x) s) fun t => t.dt = s.getV x ∧ KeepsAllBut [.dt] s t) ∧
    (decode (wordXKK 0xF x 0x18) = .ok (.ldStVx x) ∧
      Yields (exec (.ldStVx x) s) fun t => t.st = s.getV x ∧ KeepsAllBut [.st] s t)

/-- R340 (that it runs whatever the status is is the spec's decision D19, log 17): TICK takes 1 from each timer, not
below 0, and changes nothing else. -/
def Obligations.TickCountsBothTimersDown : Prop :=
  ∀ s : State, ∃ t, perform .tick s = (t, .none) ∧ t.dt.toNat = s.dt.toNat - 1 ∧
    t.st.toNat = s.st.toNat - 1 ∧ KeepsAllBut [.dt, .st] s t

/-- R343 (derived there), over every schedule: with no LOAD and no FX15 (FX18) executed, DT (ST) after a schedule is its
value before less the number of TICKs, not below 0, however many STEPs and other operations lie between. -/
def Obligations.TimersCountTicksInAnySchedule : Prop :=
  ∀ (ops : List HostOp) (s : State),
    (OnlyTicksChangeDt ops s → (performAll ops s).dt.toNat = s.dt.toNat - ops.count .tick) ∧
    (OnlyTicksChangeSt ops s → (performAll ops s).st.toNat = s.st.toNat - ops.count .tick)

/-! ### LOAD and the end of a run (70) -/

/-- R362, R363 (clearing memory and keeping fb and key are the spec's decision D17, log 15): LOAD resets the machine and
copies the ROM to 0x200, or answers RomTooLarge and changes nothing. Memory is read at every address. -/
def Obligations.LoadResetsTheMachine : Prop :=
  ∀ (s : State) (rom : List Byte),
    (s.cfg.memSize - 0x200 < rom.length →
      perform (.load rom) s = (s, .fault (.romTooLarge rom.length (s.cfg.memSize - 0x200)))) ∧
    (rom.length ≤ s.cfg.memSize - 0x200 → ∃ t, perform (.load rom) s = (t, .ok) ∧
      (∀ r, t.getV r = 0) ∧ t.i = 0 ∧ t.pc = 0x200 ∧ t.dt = 0 ∧ t.st = 0 ∧ t.stack = [] ∧
      t.status = .running ∧
      (∀ a, ∀ h : a < 80, t.readByte a = s.cfg.font[a]) ∧
      (∀ k, ∀ h : k < rom.length, t.readByte (0x200 + k) = rom[k]) ∧
      (∀ a, 80 ≤ a → a < 0x200 ∨ 0x200 + rom.length ≤ a → t.readByte a = 0) ∧
      KeepsAllBut [.v, .i, .pc, .dt, .st, .stack, .mem, .status] s t)

/-- The document's §8 property (95 S9; R364, R77): LOAD followed at once by STEP executes the ROM's first word, read high
byte first, at 0x200. -/
def Obligations.LoadThenStepRunsTheFirstWord : Prop :=
  ∀ (s : State) (hi lo : Byte) (rest : List Byte) (i : Instr),
    rest.length + 2 ≤ s.cfg.memSize - 0x200 → decode (BitVec.ofNat 16 (0x100 * hi.toNat + lo.toNat)) = .ok i →
    ∃ t, perform (.load (hi :: lo :: rest)) s = (t, .ok) ∧ step t = exec i { t with pc := 0x202 }

/-- R369 b (the spec's decision D39, log 35) and R161: at a good end every STEP leaves the whole state as it is. -/
def Obligations.GoodEndIsAFixpoint : Prop :=
  ∀ (s : State) (p : Word), GoodEnd s p → step s = .next s
end

