-- ==== Sys2Proof/Laws/State.lean ====
section
/-! SUPPORT. One lemma per field per update of State, true by rfl, and the reads of a register and of a byte of
memory after each update. -/

namespace Sys2Proof.Machine

variable (s : State)

/-! ### `setV` -/

@[simp] theorem setV_cfg (x : Reg) (b : Byte) : (s.setV x b).cfg = s.cfg := rfl
@[simp] theorem setV_v (x : Reg) (b : Byte) : (s.setV x b).v = s.v.set x.val b := rfl
@[simp] theorem setV_i (x : Reg) (b : Byte) : (s.setV x b).i = s.i := rfl
@[simp] theorem setV_pc (x : Reg) (b : Byte) : (s.setV x b).pc = s.pc := rfl
@[simp] theorem setV_dt (x : Reg) (b : Byte) : (s.setV x b).dt = s.dt := rfl
@[simp] theorem setV_st (x : Reg) (b : Byte) : (s.setV x b).st = s.st := rfl
@[simp] theorem setV_stack (x : Reg) (b : Byte) : (s.setV x b).stack = s.stack := rfl
@[simp] theorem setV_mem (x : Reg) (b : Byte) : (s.setV x b).mem = s.mem := rfl
@[simp] theorem setV_fb (x : Reg) (b : Byte) : (s.setV x b).fb = s.fb := rfl
@[simp] theorem setV_key (x : Reg) (b : Byte) : (s.setV x b).key = s.key := rfl
@[simp] theorem setV_status (x : Reg) (b : Byte) : (s.setV x b).status = s.status := rfl
@[simp] theorem setV_draws (x : Reg) (b : Byte) : (s.setV x b).draws = s.draws := rfl
@[simp] theorem setV_readByte (x : Reg) (b : Byte) (a : Nat) : (s.setV x b).readByte a = s.readByte a := rfl

/-! ### `setI` -/

@[simp] theorem setI_cfg (a : Word) : (s.setI a).cfg = s.cfg := rfl
@[simp] theorem setI_v (a : Word) : (s.setI a).v = s.v := rfl
@[simp] theorem setI_i (a : Word) : (s.setI a).i = a := rfl
@[simp] theorem setI_pc (a : Word) : (s.setI a).pc = s.pc := rfl
@[simp] theorem setI_dt (a : Word) : (s.setI a).dt = s.dt := rfl
@[simp] theorem setI_st (a : Word) : (s.setI a).st = s.st := rfl
@[simp] theorem setI_stack (a : Word) : (s.setI a).stack = s.stack := rfl
@[simp] theorem setI_mem (a : Word) : (s.setI a).mem = s.mem := rfl
@[simp] theorem setI_fb (a : Word) : (s.setI a).fb = s.fb := rfl
@[simp] theorem setI_key (a : Word) : (s.setI a).key = s.key := rfl
@[simp] theorem setI_status (a : Word) : (s.setI a).status = s.status := rfl
@[simp] theorem setI_draws (a : Word) : (s.setI a).draws = s.draws := rfl
@[simp] theorem setI_getV (a : Word) (r : Reg) : (s.setI a).getV r = s.getV r := rfl
@[simp] theorem setI_readByte (a : Word) (k : Nat) : (s.setI a).readByte k = s.readByte k := rfl

/-! ### `setPc` -/

@[simp] theorem setPc_cfg (a : Word) : (s.setPc a).cfg = s.cfg := rfl
@[simp] theorem setPc_v (a : Word) : (s.setPc a).v = s.v := rfl
@[simp] theorem setPc_i (a : Word) : (s.setPc a).i = s.i := rfl
@[simp] theorem setPc_pc (a : Word) : (s.setPc a).pc = a := rfl
@[simp] theorem setPc_dt (a : Word) : (s.setPc a).dt = s.dt := rfl
@[simp] theorem setPc_st (a : Word) : (s.setPc a).st = s.st := rfl
@[simp] theorem setPc_stack (a : Word) : (s.setPc a).stack = s.stack := rfl
@[simp] theorem setPc_mem (a : Word) : (s.setPc a).mem = s.mem := rfl
@[simp] theorem setPc_fb (a : Word) : (s.setPc a).fb = s.fb := rfl
@[simp] theorem setPc_key (a : Word) : (s.setPc a).key = s.key := rfl
@[simp] theorem setPc_status (a : Word) : (s.setPc a).status = s.status := rfl
@[simp] theorem setPc_draws (a : Word) : (s.setPc a).draws = s.draws := rfl
@[simp] theorem setPc_getV (a : Word) (r : Reg) : (s.setPc a).getV r = s.getV r := rfl
@[simp] theorem setPc_readByte (a : Word) (k : Nat) : (s.setPc a).readByte k = s.readByte k := rfl

/-! ### `setDt` -/

@[simp] theorem setDt_cfg (a : Byte) : (s.setDt a).cfg = s.cfg := rfl
@[simp] theorem setDt_v (a : Byte) : (s.setDt a).v = s.v := rfl
@[simp] theorem setDt_i (a : Byte) : (s.setDt a).i = s.i := rfl
@[simp] theorem setDt_pc (a : Byte) : (s.setDt a).pc = s.pc := rfl
@[simp] theorem setDt_dt (a : Byte) : (s.setDt a).dt = a := rfl
@[simp] theorem setDt_st (a : Byte) : (s.setDt a).st = s.st := rfl
@[simp] theorem setDt_stack (a : Byte) : (s.setDt a).stack = s.stack := rfl
@[simp] theorem setDt_mem (a : Byte) : (s.setDt a).mem = s.mem := rfl
@[simp] theorem setDt_fb (a : Byte) : (s.setDt a).fb = s.fb := rfl
@[simp] theorem setDt_key (a : Byte) : (s.setDt a).key = s.key := rfl
@[simp] theorem setDt_status (a : Byte) : (s.setDt a).status = s.status := rfl
@[simp] theorem setDt_draws (a : Byte) : (s.setDt a).draws = s.draws := rfl
@[simp] theorem setDt_getV (a : Byte) (r : Reg) : (s.setDt a).getV r = s.getV r := rfl
@[simp] theorem setDt_readByte (a : Byte) (k : Nat) : (s.setDt a).readByte k = s.readByte k := rfl

/-! ### `setSt` -/

@[simp] theorem setSt_cfg (a : Byte) : (s.setSt a).cfg = s.cfg := rfl
@[simp] theorem setSt_v (a : Byte) : (s.setSt a).v = s.v := rfl
@[simp] theorem setSt_i (a : Byte) : (s.setSt a).i = s.i := rfl
@[simp] theorem setSt_pc (a : Byte) : (s.setSt a).pc = s.pc := rfl
@[simp] theorem setSt_dt (a : Byte) : (s.setSt a).dt = s.dt := rfl
@[simp] theorem setSt_st (a : Byte) : (s.setSt a).st = a := rfl
@[simp] theorem setSt_stack (a : Byte) : (s.setSt a).stack = s.stack := rfl
@[simp] theorem setSt_mem (a : Byte) : (s.setSt a).mem = s.mem := rfl
@[simp] theorem setSt_fb (a : Byte) : (s.setSt a).fb = s.fb := rfl
@[simp] theorem setSt_key (a : Byte) : (s.setSt a).key = s.key := rfl
@[simp] theorem setSt_status (a : Byte) : (s.setSt a).status = s.status := rfl
@[simp] theorem setSt_draws (a : Byte) : (s.setSt a).draws = s.draws := rfl
@[simp] theorem setSt_getV (a : Byte) (r : Reg) : (s.setSt a).getV r = s.getV r := rfl
@[simp] theorem setSt_readByte (a : Byte) (k : Nat) : (s.setSt a).readByte k = s.readByte k := rfl

/-! ### `setStack` -/

@[simp] theorem setStack_cfg (a : List Word) : (s.setStack a).cfg = s.cfg := rfl
@[simp] theorem setStack_v (a : List Word) : (s.setStack a).v = s.v := rfl
@[simp] theorem setStack_i (a : List Word) : (s.setStack a).i = s.i := rfl
@[simp] theorem setStack_pc (a : List Word) : (s.setStack a).pc = s.pc := rfl
@[simp] theorem setStack_dt (a : List Word) : (s.setStack a).dt = s.dt := rfl
@[simp] theorem setStack_st (a : List Word) : (s.setStack a).st = s.st := rfl
@[simp] theorem setStack_stack (a : List Word) : (s.setStack a).stack = a := rfl
@[simp] theorem setStack_mem (a : List Word) : (s.setStack a).mem = s.mem := rfl
@[simp] theorem setStack_fb (a : List Word) : (s.setStack a).fb = s.fb := rfl
@[simp] theorem setStack_key (a : List Word) : (s.setStack a).key = s.key := rfl
@[simp] theorem setStack_status (a : List Word) : (s.setStack a).status = s.status := rfl
@[simp] theorem setStack_draws (a : List Word) : (s.setStack a).draws = s.draws := rfl
@[simp] theorem setStack_getV (a : List Word) (r : Reg) : (s.setStack a).getV r = s.getV r := rfl
@[simp] theorem setStack_readByte (a : List Word) (k : Nat) : (s.setStack a).readByte k = s.readByte k := rfl

/-! ### `setMem` -/

@[simp] theorem setMem_cfg (a : Memory) : (s.setMem a).cfg = s.cfg := rfl
@[simp] theorem setMem_v (a : Memory) : (s.setMem a).v = s.v := rfl
@[simp] theorem setMem_i (a : Memory) : (s.setMem a).i = s.i := rfl
@[simp] theorem setMem_pc (a : Memory) : (s.setMem a).pc = s.pc := rfl
@[simp] theorem setMem_dt (a : Memory) : (s.setMem a).dt = s.dt := rfl
@[simp] theorem setMem_st (a : Memory) : (s.setMem a).st = s.st := rfl
@[simp] theorem setMem_stack (a : Memory) : (s.setMem a).stack = s.stack := rfl
@[simp] theorem setMem_mem (a : Memory) : (s.setMem a).mem = a := rfl
@[simp] theorem setMem_fb (a : Memory) : (s.setMem a).fb = s.fb := rfl
@[simp] theorem setMem_key (a : Memory) : (s.setMem a).key = s.key := rfl
@[simp] theorem setMem_status (a : Memory) : (s.setMem a).status = s.status := rfl
@[simp] theorem setMem_draws (a : Memory) : (s.setMem a).draws = s.draws := rfl
@[simp] theorem setMem_getV (a : Memory) (r : Reg) : (s.setMem a).getV r = s.getV r := rfl
@[simp] theorem setMem_readByte (a : Memory) (k : Nat) : (s.setMem a).readByte k = Memory.read s.cfg a k := rfl

/-! ### `setFb` -/

@[simp] theorem setFb_cfg (a : Framebuffer) : (s.setFb a).cfg = s.cfg := rfl
@[simp] theorem setFb_v (a : Framebuffer) : (s.setFb a).v = s.v := rfl
@[simp] theorem setFb_i (a : Framebuffer) : (s.setFb a).i = s.i := rfl
@[simp] theorem setFb_pc (a : Framebuffer) : (s.setFb a).pc = s.pc := rfl
@[simp] theorem setFb_dt (a : Framebuffer) : (s.setFb a).dt = s.dt := rfl
@[simp] theorem setFb_st (a : Framebuffer) : (s.setFb a).st = s.st := rfl
@[simp] theorem setFb_stack (a : Framebuffer) : (s.setFb a).stack = s.stack := rfl
@[simp] theorem setFb_mem (a : Framebuffer) : (s.setFb a).mem = s.mem := rfl
@[simp] theorem setFb_fb (a : Framebuffer) : (s.setFb a).fb = a := rfl
@[simp] theorem setFb_key (a : Framebuffer) : (s.setFb a).key = s.key := rfl
@[simp] theorem setFb_status (a : Framebuffer) : (s.setFb a).status = s.status := rfl
@[simp] theorem setFb_draws (a : Framebuffer) : (s.setFb a).draws = s.draws := rfl
@[simp] theorem setFb_getV (a : Framebuffer) (r : Reg) : (s.setFb a).getV r = s.getV r := rfl
@[simp] theorem setFb_readByte (a : Framebuffer) (k : Nat) : (s.setFb a).readByte k = s.readByte k := rfl

/-! ### `setKey` -/

@[simp] theorem setKey_cfg (a : Keypad) : (s.setKey a).cfg = s.cfg := rfl
@[simp] theorem setKey_v (a : Keypad) : (s.setKey a).v = s.v := rfl
@[simp] theorem setKey_i (a : Keypad) : (s.setKey a).i = s.i := rfl
@[simp] theorem setKey_pc (a : Keypad) : (s.setKey a).pc = s.pc := rfl
@[simp] theorem setKey_dt (a : Keypad) : (s.setKey a).dt = s.dt := rfl
@[simp] theorem setKey_st (a : Keypad) : (s.setKey a).st = s.st := rfl
@[simp] theorem setKey_stack (a : Keypad) : (s.setKey a).stack = s.stack := rfl
@[simp] theorem setKey_mem (a : Keypad) : (s.setKey a).mem = s.mem := rfl
@[simp] theorem setKey_fb (a : Keypad) : (s.setKey a).fb = s.fb := rfl
@[simp] theorem setKey_key (a : Keypad) : (s.setKey a).key = a := rfl
@[simp] theorem setKey_status (a : Keypad) : (s.setKey a).status = s.status := rfl
@[simp] theorem setKey_draws (a : Keypad) : (s.setKey a).draws = s.draws := rfl
@[simp] theorem setKey_getV (a : Keypad) (r : Reg) : (s.setKey a).getV r = s.getV r := rfl
@[simp] theorem setKey_readByte (a : Keypad) (k : Nat) : (s.setKey a).readByte k = s.readByte k := rfl

/-! ### `setStatus` -/

@[simp] theorem setStatus_cfg (a : RunStatus) : (s.setStatus a).cfg = s.cfg := rfl
@[simp] theorem setStatus_v (a : RunStatus) : (s.setStatus a).v = s.v := rfl
@[simp] theorem setStatus_i (a : RunStatus) : (s.setStatus a).i = s.i := rfl
@[simp] theorem setStatus_pc (a : RunStatus) : (s.setStatus a).pc = s.pc := rfl
@[simp] theorem setStatus_dt (a : RunStatus) : (s.setStatus a).dt = s.dt := rfl
@[simp] theorem setStatus_st (a : RunStatus) : (s.setStatus a).st = s.st := rfl
@[simp] theorem setStatus_stack (a : RunStatus) : (s.setStatus a).stack = s.stack := rfl
@[simp] theorem setStatus_mem (a : RunStatus) : (s.setStatus a).mem = s.mem := rfl
@[simp] theorem setStatus_fb (a : RunStatus) : (s.setStatus a).fb = s.fb := rfl
@[simp] theorem setStatus_key (a : RunStatus) : (s.setStatus a).key = s.key := rfl
@[simp] theorem setStatus_status (a : RunStatus) : (s.setStatus a).status = a := rfl
@[simp] theorem setStatus_draws (a : RunStatus) : (s.setStatus a).draws = s.draws := rfl
@[simp] theorem setStatus_getV (a : RunStatus) (r : Reg) : (s.setStatus a).getV r = s.getV r := rfl
@[simp] theorem setStatus_readByte (a : RunStatus) (k : Nat) : (s.setStatus a).readByte k = s.readByte k := rfl

/-! ### `setDraws` -/

@[simp] theorem setDraws_cfg (a : Nat) : (s.setDraws a).cfg = s.cfg := rfl
@[simp] theorem setDraws_v (a : Nat) : (s.setDraws a).v = s.v := rfl
@[simp] theorem setDraws_i (a : Nat) : (s.setDraws a).i = s.i := rfl
@[simp] theorem setDraws_pc (a : Nat) : (s.setDraws a).pc = s.pc := rfl
@[simp] theorem setDraws_dt (a : Nat) : (s.setDraws a).dt = s.dt := rfl
@[simp] theorem setDraws_st (a : Nat) : (s.setDraws a).st = s.st := rfl
@[simp] theorem setDraws_stack (a : Nat) : (s.setDraws a).stack = s.stack := rfl
@[simp] theorem setDraws_mem (a : Nat) : (s.setDraws a).mem = s.mem := rfl
@[simp] theorem setDraws_fb (a : Nat) : (s.setDraws a).fb = s.fb := rfl
@[simp] theorem setDraws_key (a : Nat) : (s.setDraws a).key = s.key := rfl
@[simp] theorem setDraws_status (a : Nat) : (s.setDraws a).status = s.status := rfl
@[simp] theorem setDraws_draws (a : Nat) : (s.setDraws a).draws = a := rfl
@[simp] theorem setDraws_getV (a : Nat) (r : Reg) : (s.setDraws a).getV r = s.getV r := rfl
@[simp] theorem setDraws_readByte (a : Nat) (k : Nat) : (s.setDraws a).readByte k = s.readByte k := rfl

theorem advancePc_eq : s.advancePc = { s with pc := s.pc + 2 } := rfl

theorem drawn_eq : s.drawn = { s with draws := s.draws + 1 } := rfl

/-! ### Registers -/

/-- V[r] after V[x] is written. -/
@[simp] theorem setV_getV (x r : Reg) (b : Byte) : (s.setV x b).getV r = if r = x then b else s.getV r := by
  simp only [State.getV, State.setV, Vector.getElem_set, Fin.ext_iff, eq_comm]

theorem setV_getV_same (x : Reg) (b : Byte) : (s.setV x b).getV x = b := by simp

theorem setV_getV_other {x r : Reg} (b : Byte) (h : r ≠ x) : (s.setV x b).getV r = s.getV r := by simp [h]

/-- Two register files that read alike are one. -/
theorem v_ext {u w : Vector Byte 16} (h : ∀ r : Reg, u[r.val] = w[r.val]) : u = w :=
  Vector.ext fun k hk => h ⟨k, hk⟩

/-! ### The frames of the composite updates -/

@[simp] theorem advanceI_cfg (x : Reg) : (s.advanceI x).cfg = s.cfg := by unfold State.advanceI; split <;> rfl
@[simp] theorem advanceI_v (x : Reg) : (s.advanceI x).v = s.v := by unfold State.advanceI; split <;> rfl
@[simp] theorem advanceI_pc (x : Reg) : (s.advanceI x).pc = s.pc := by unfold State.advanceI; split <;> rfl
@[simp] theorem advanceI_dt (x : Reg) : (s.advanceI x).dt = s.dt := by unfold State.advanceI; split <;> rfl
@[simp] theorem advanceI_st (x : Reg) : (s.advanceI x).st = s.st := by unfold State.advanceI; split <;> rfl
@[simp] theorem advanceI_stack (x : Reg) : (s.advanceI x).stack = s.stack := by unfold State.advanceI; split <;> rfl
@[simp] theorem advanceI_mem (x : Reg) : (s.advanceI x).mem = s.mem := by unfold State.advanceI; split <;> rfl
@[simp] theorem advanceI_fb (x : Reg) : (s.advanceI x).fb = s.fb := by unfold State.advanceI; split <;> rfl
@[simp] theorem advanceI_key (x : Reg) : (s.advanceI x).key = s.key := by unfold State.advanceI; split <;> rfl
@[simp] theorem advanceI_status (x : Reg) : (s.advanceI x).status = s.status := by unfold State.advanceI; split <;> rfl
@[simp] theorem advanceI_draws (x : Reg) : (s.advanceI x).draws = s.draws := by unfold State.advanceI; split <;> rfl
@[simp] theorem advanceI_getV (x r : Reg) : (s.advanceI x).getV r = s.getV r := by
  unfold State.advanceI; split <;> rfl
@[simp] theorem advanceI_readByte (x : Reg) (a : Nat) : (s.advanceI x).readByte a = s.readByte a := by
  unfold State.advanceI; split <;> rfl
/-- I after `advanceI` (43 R234, R235). -/
theorem advanceI_i (x : Reg) :
    (s.advanceI x).i = if s.cfg.lsIncrementI then s.i + BitVec.ofNat 16 (x.val + 1) else s.i := by
  unfold State.advanceI; split <;> rfl

@[simp] theorem skipIf_cfg (c : Bool) : (s.skipIf c).cfg = s.cfg := by unfold State.skipIf; split <;> rfl
@[simp] theorem skipIf_v (c : Bool) : (s.skipIf c).v = s.v := by unfold State.skipIf; split <;> rfl
@[simp] theorem skipIf_i (c : Bool) : (s.skipIf c).i = s.i := by unfold State.skipIf; split <;> rfl
@[simp] theorem skipIf_dt (c : Bool) : (s.skipIf c).dt = s.dt := by unfold State.skipIf; split <;> rfl
@[simp] theorem skipIf_st (c : Bool) : (s.skipIf c).st = s.st := by unfold State.skipIf; split <;> rfl
@[simp] theorem skipIf_stack (c : Bool) : (s.skipIf c).stack = s.stack := by unfold State.skipIf; split <;> rfl
@[simp] theorem skipIf_mem (c : Bool) : (s.skipIf c).mem = s.mem := by unfold State.skipIf; split <;> rfl
@[simp] theorem skipIf_fb (c : Bool) : (s.skipIf c).fb = s.fb := by unfold State.skipIf; split <;> rfl
@[simp] theorem skipIf_key (c : Bool) : (s.skipIf c).key = s.key := by unfold State.skipIf; split <;> rfl
@[simp] theorem skipIf_status (c : Bool) : (s.skipIf c).status = s.status := by unfold State.skipIf; split <;> rfl
@[simp] theorem skipIf_draws (c : Bool) : (s.skipIf c).draws = s.draws := by unfold State.skipIf; split <;> rfl
@[simp] theorem skipIf_getV (c : Bool) (r : Reg) : (s.skipIf c).getV r = s.getV r := by
  unfold State.skipIf; split <;> rfl
@[simp] theorem skipIf_readByte (c : Bool) (a : Nat) : (s.skipIf c).readByte a = s.readByte a := by
  unfold State.skipIf; split <;> rfl
/-- PC after a skip instruction. -/
theorem skipIf_pc (c : Bool) : (s.skipIf c).pc = if c then s.pc + 2 else s.pc := by
  unfold State.skipIf; split <;> rfl

@[simp] theorem writeResultFlag_cfg (d : Bool) (x : Reg) (r : Byte) (g : Bool) :
    (s.writeResultFlag d x r g).cfg = s.cfg := by unfold State.writeResultFlag; split <;> rfl
@[simp] theorem writeResultFlag_i (d : Bool) (x : Reg) (r : Byte) (g : Bool) :
    (s.writeResultFlag d x r g).i = s.i := by unfold State.writeResultFlag; split <;> rfl
@[simp] theorem writeResultFlag_pc (d : Bool) (x : Reg) (r : Byte) (g : Bool) :
    (s.writeResultFlag d x r g).pc = s.pc := by unfold State.writeResultFlag; split <;> rfl
@[simp] theorem writeResultFlag_dt (d : Bool) (x : Reg) (r : Byte) (g : Bool) :
    (s.writeResultFlag d x r g).dt = s.dt := by unfold State.writeResultFlag; split <;> rfl
@[simp] theorem writeResultFlag_st (d : Bool) (x : Reg) (r : Byte) (g : Bool) :
    (s.writeResultFlag d x r g).st = s.st := by unfold State.writeResultFlag; split <;> rfl
@[simp] theorem writeResultFlag_stack (d : Bool) (x : Reg) (r : Byte) (g : Bool) :
    (s.writeResultFlag d x r g).stack = s.stack := by unfold State.writeResultFlag; split <;> rfl
@[simp] theorem writeResultFlag_mem (d : Bool) (x : Reg) (r : Byte) (g : Bool) :
    (s.writeResultFlag d x r g).mem = s.mem := by unfold State.writeResultFlag; split <;> rfl
@[simp] theorem writeResultFlag_fb (d : Bool) (x : Reg) (r : Byte) (g : Bool) :
    (s.writeResultFlag d x r g).fb = s.fb := by unfold State.writeResultFlag; split <;> rfl
@[simp] theorem writeResultFlag_key (d : Bool) (x : Reg) (r : Byte) (g : Bool) :
    (s.writeResultFlag d x r g).key = s.key := by unfold State.writeResultFlag; split <;> rfl
@[simp] theorem writeResultFlag_status (d : Bool) (x : Reg) (r : Byte) (g : Bool) :
    (s.writeResultFlag d x r g).status = s.status := by unfold State.writeResultFlag; split <;> rfl
@[simp] theorem writeResultFlag_draws (d : Bool) (x : Reg) (r : Byte) (g : Bool) :
    (s.writeResultFlag d x r g).draws = s.draws := by unfold State.writeResultFlag; split <;> rfl
@[simp] theorem writeResultFlag_readByte (d : Bool) (x : Reg) (r : Byte) (g : Bool) (a : Nat) :
    (s.writeResultFlag d x r g).readByte a = s.readByte a := by unfold State.writeResultFlag; split <;> rfl

/-- Registers after a result and a flag are written (42 R203). -/
theorem writeResultFlag_getV (d : Bool) (x q : Reg) (r : Byte) (g : Bool) :
    (s.writeResultFlag d x r g).getV q =
      if flagWrittenLast s.cfg.vfOrder d then (if q = VF then flagByte g else if q = x then r else s.getV q)
      else (if q = x then r else if q = VF then flagByte g else s.getV q) := by
  unfold State.writeResultFlag
  split <;> simp

/-- Where x is not VF the order of the two writes does not matter (42 R203). -/
theorem writeResultFlag_getV_of_ne (d : Bool) {x : Reg} (q : Reg) (r : Byte) (g : Bool) (hx : x ≠ VF) :
    (s.writeResultFlag d x r g).getV q = if q = VF then flagByte g else if q = x then r else s.getV q := by
  rw [writeResultFlag_getV]
  by_cases h : q = VF
  · have : q ≠ x := fun e => hx (e.symm.trans h)
    simp [h, Ne.symm hx]
  · simp [h]

@[simp] theorem setRegsFrom_cfg (s : State) (k : Nat) (bs : List Byte) : (s.setRegsFrom k bs).cfg = s.cfg := by
  induction bs generalizing s k with
  | nil => rfl
  | cons b bs ih => simp [State.setRegsFrom, ih]
@[simp] theorem setRegsFrom_i (s : State) (k : Nat) (bs : List Byte) : (s.setRegsFrom k bs).i = s.i := by
  induction bs generalizing s k with
  | nil => rfl
  | cons b bs ih => simp [State.setRegsFrom, ih]
@[simp] theorem setRegsFrom_pc (s : State) (k : Nat) (bs : List Byte) : (s.setRegsFrom k bs).pc = s.pc := by
  induction bs generalizing s k with
  | nil => rfl
  | cons b bs ih => simp [State.setRegsFrom, ih]
@[simp] theorem setRegsFrom_dt (s : State) (k : Nat) (bs : List Byte) : (s.setRegsFrom k bs).dt = s.dt := by
  induction bs generalizing s k with
  | nil => rfl
  | cons b bs ih => simp [State.setRegsFrom, ih]
@[simp] theorem setRegsFrom_st (s : State) (k : Nat) (bs : List Byte) : (s.setRegsFrom k bs).st = s.st := by
  induction bs generalizing s k with
  | nil => rfl
  | cons b bs ih => simp [State.setRegsFrom, ih]
@[simp] theorem setRegsFrom_stack (s : State) (k : Nat) (bs : List Byte) : (s.setRegsFrom k bs).stack = s.stack := by
  induction bs generalizing s k with
  | nil => rfl
  | cons b bs ih => simp [State.setRegsFrom, ih]
@[simp] theorem setRegsFrom_mem (s : State) (k : Nat) (bs : List Byte) : (s.setRegsFrom k bs).mem = s.mem := by
  induction bs generalizing s k with
  | nil => rfl
  | cons b bs ih => simp [State.setRegsFrom, ih]
@[simp] theorem setRegsFrom_fb (s : State) (k : Nat) (bs : List Byte) : (s.setRegsFrom k bs).fb = s.fb := by
  induction bs generalizing s k with
  | nil => rfl
  | cons b bs ih => simp [State.setRegsFrom, ih]
@[simp] theorem setRegsFrom_key (s : State) (k : Nat) (bs : List Byte) : (s.setRegsFrom k bs).key = s.key := by
  induction bs generalizing s k with
  | nil => rfl
  | cons b bs ih => simp [State.setRegsFrom, ih]
@[simp] theorem setRegsFrom_status (s : State) (k : Nat) (bs : List Byte) : (s.setRegsFrom k bs).status = s.status := by
  induction bs generalizing s k with
  | nil => rfl
  | cons b bs ih => simp [State.setRegsFrom, ih]
@[simp] theorem setRegsFrom_draws (s : State) (k : Nat) (bs : List Byte) : (s.setRegsFrom k bs).draws = s.draws := by
  induction bs generalizing s k with
  | nil => rfl
  | cons b bs ih => simp [State.setRegsFrom, ih]
@[simp] theorem setRegsFrom_readByte (s : State) (k : Nat) (bs : List Byte) (a : Nat) :
    (s.setRegsFrom k bs).readByte a = s.readByte a := by simp [State.readByte]

/-- V[r] after the block V[k], V[k+1], ... is loaded (43 R235): the block's byte where r is in it, else as before. -/
theorem setRegsFrom_getV (s : State) (k : Nat) (bs : List Byte) (r : Reg) (hk : k + bs.length ≤ 16) :
    (s.setRegsFrom k bs).getV r =
      if h : k ≤ r.val ∧ r.val < k + bs.length then bs[r.val - k]'(by omega) else s.getV r := by
  induction bs generalizing s k with
  | nil =>
    have h : ¬ (k ≤ r.val ∧ r.val < k + 0) := by omega
    simp only [State.setRegsFrom, List.length_nil, h, dite_false]
  | cons b bs ih =>
    rw [State.setRegsFrom, ih _ (k + 1) (by simp at hk; omega)]
    have hv : (Fin.ofNat 16 k : Reg).val = k := by simp at hk ⊢; omega
    by_cases h0 : r.val = k
    · have hr : r = Fin.ofNat 16 k := Fin.ext (by omega)
      have h1 : ¬ (k + 1 ≤ r.val ∧ r.val < k + 1 + bs.length) := by omega
      have h2 : k ≤ r.val ∧ r.val < k + (b :: bs).length := by simp; omega
      have e : r.val - k = 0 := by omega
      rw [dif_neg h1, dif_pos h2, setV_getV, if_pos hr]
      simp only [e, List.getElem_cons_zero]
    · have hr : r ≠ Fin.ofNat 16 k := fun e => h0 (by rw [e, hv])
      by_cases h1 : k + 1 ≤ r.val ∧ r.val < k + 1 + bs.length
      · have h2 : k ≤ r.val ∧ r.val < k + (b :: bs).length := by simp; omega
        have e : r.val - k = (r.val - (k + 1)) + 1 := by omega
        rw [dif_pos h1, dif_pos h2]
        simp only [e, List.getElem_cons_succ]
      · have h2 : ¬ (k ≤ r.val ∧ r.val < k + (b :: bs).length) := by simp; omega
        rw [dif_neg h1, dif_neg h2, setV_getV, if_neg hr]

/-- The list [V0..Vx] has x + 1 bytes. -/
@[simp] theorem regsUpTo_length (x : Reg) : (s.regsUpTo x).length = x.val + 1 := by
  simp [State.regsUpTo]

/-- Byte k of [V0..Vx] is V[k]. -/
theorem regsUpTo_getElem (x : Reg) (k : Reg) (h : k.val < (s.regsUpTo x).length) :
    (s.regsUpTo x)[k.val] = s.getV k := by
  simp [State.regsUpTo, State.getV]

end Sys2Proof.Machine
end

