-- ==== Sys2Proof/Laws/Memory.lean ====
section
/-! SUPPORT. The laws of memory: reading after writing, and that every memory operation keeps the canonical form. -/

namespace Sys2Proof.Machine

/-- The addresses of a memory list rise strictly: the part of the canonical form that reads rest on. -/
abbrev Memory.rising (m : Memory) : Prop := m.Pairwise (fun e f => e.1 < f.1)

theorem Memory.wf_rising {c : Config} {m : Memory} (h : Memory.wf c m) : Memory.rising m := h.1

/-! ### Lookup -/

/-- An address below every listed one is not listed. -/
theorem Memory.find_eq_none {m : Memory} {a : Nat} (h : ∀ e ∈ m, a ≠ e.1) : Memory.find m a = none := by
  induction m with
  | nil => rfl
  | cons e rest ih =>
    simp only [Memory.find, if_neg (h e (by simp))]
    exact ih fun e' he' => h e' (by simp [he'])

/-- A found byte is a listed one. -/
theorem Memory.mem_of_find {m : Memory} {a : Nat} {b : Byte} (h : Memory.find m a = some b) : (a, b) ∈ m := by
  induction m with
  | nil => cases h
  | cons e rest ih =>
    simp only [Memory.find] at h
    split at h
    · next hk => cases h; simp [hk]
    · simp [ih h]

/-- A listed byte is the one found. -/
theorem Memory.find_of_mem {m : Memory} {a : Nat} {b : Byte} (hr : Memory.rising m) (h : (a, b) ∈ m) :
    Memory.find m a = some b := by
  induction m with
  | nil => cases h
  | cons e rest ih =>
    rw [Memory.rising, List.pairwise_cons] at hr
    rcases List.mem_cons.mp h with rfl | h'
    · simp [Memory.find]
    · have : a ≠ e.1 := fun he => absurd (hr.1 _ h') (by simp [he])
      simp only [Memory.find, if_neg this, ih hr.2 h']

/-! ### Erasing and inserting -/

theorem Memory.mem_of_mem_erase {m : Memory} {a : Nat} {e : Host.Cell} (h : e ∈ Memory.erase m a) : e ∈ m := by
  induction m with
  | nil => cases h
  | cons f rest ih =>
    simp only [Memory.erase] at h
    split at h
    · simp [h]
    · rcases List.mem_cons.mp h with rfl | h'
      · simp
      · simp [ih h']

theorem Memory.mem_insert {m : Memory} {a : Nat} {x : Byte} {e : Host.Cell} (h : e ∈ Memory.insert m a x) :
    e = (a, x) ∨ e ∈ m := by
  induction m with
  | nil => exact .inl (by simpa [Memory.insert] using h)
  | cons f rest ih =>
    simp only [Memory.insert] at h
    split at h
    · simpa using h
    · split at h
      · rcases List.mem_cons.mp h with rfl | h'
        · exact .inl rfl
        · exact .inr (by simp [h'])
      · rcases List.mem_cons.mp h with rfl | h'
        · exact .inr (by simp)
        · exact (ih h').imp id fun h'' => by simp [h'']

theorem Memory.erase_rising {m : Memory} (a : Nat) (h : Memory.rising m) : Memory.rising (Memory.erase m a) := by
  induction m with
  | nil => exact h
  | cons f rest ih =>
    rw [Memory.rising, List.pairwise_cons] at h
    simp only [Memory.erase]
    split
    · exact h.2
    · exact List.pairwise_cons.mpr ⟨fun e he => h.1 e (Memory.mem_of_mem_erase he), ih h.2⟩

theorem Memory.insert_rising {m : Memory} (a : Nat) (x : Byte) (h : Memory.rising m) :
    Memory.rising (Memory.insert m a x) := by
  induction m with
  | nil => exact List.pairwise_singleton _ _
  | cons f rest ih =>
    have h' := List.pairwise_cons.mp h
    simp only [Memory.insert]
    split
    · next hlt =>
      refine List.pairwise_cons.mpr ⟨fun e he => ?_, h⟩
      rcases List.mem_cons.mp he with rfl | he'
      · exact hlt
      · exact lt_trans hlt (h'.1 e he')
    · split
      · next heq => exact List.pairwise_cons.mpr ⟨fun e he => by simpa [heq] using h'.1 e he, h'.2⟩
      · next hlt hne =>
        refine List.pairwise_cons.mpr ⟨fun e he => ?_, ih h'.2⟩
        rcases Memory.mem_insert he with rfl | he'
        · show f.1 < a
          omega
        · exact h'.1 e he'

theorem Memory.find_erase {m : Memory} (a b : Nat) (h : Memory.rising m) :
    Memory.find (Memory.erase m a) b = if b = a then none else Memory.find m b := by
  induction m with
  | nil => simp [Memory.erase, Memory.find]
  | cons f rest ih =>
    have h' := List.pairwise_cons.mp h
    simp only [Memory.erase]
    split
    · next ha =>
      by_cases hb : b = a
      · rw [if_pos hb]
        exact Memory.find_eq_none fun e he => by have := h'.1 e he; omega
      · rw [if_neg hb, Memory.find, if_neg (by omega)]
    · next ha =>
      simp only [Memory.find, ih h'.2]
      by_cases hb : b = f.1
      · rw [if_pos hb, if_neg (by omega), if_pos hb]
      · rw [if_neg hb, if_neg hb]

theorem Memory.find_insert (m : Memory) (a b : Nat) (x : Byte) :
    Memory.find (Memory.insert m a x) b = if b = a then some x else Memory.find m b := by
  induction m with
  | nil => simp [Memory.insert, Memory.find]
  | cons f rest ih =>
    simp only [Memory.insert]
    split
    · simp only [Memory.find]
    · split
      · next heq => by_cases hb : b = a <;> simp [Memory.find, hb, ← heq]
      · next hlt hne =>
        simp only [Memory.find, ih]
        by_cases hb : b = f.1
        · rw [if_pos hb, if_neg (by omega), if_pos hb]
        · rw [if_neg hb, if_neg hb]

/-! ### Reading after writing -/

/-- Reading after one byte is written: that byte at its address, every other address as before (20 R85). -/
theorem Memory.read_write {c : Config} {m : Memory} (a b : Nat) (x : Byte) (h : Memory.rising m) :
    Memory.read c (Memory.write c m a x) b = if b = a then x else Memory.read c m b := by
  unfold Memory.write Memory.read
  by_cases hx : x = background c a
  · rw [if_pos hx, Memory.find_erase a b h]
    by_cases hb : b = a
    · simp [hb, hx]
    · simp [hb]
  · rw [if_neg hx, Memory.find_insert]
    by_cases hb : b = a <;> simp [hb]

theorem Memory.write_rising {c : Config} {m : Memory} (a : Nat) (x : Byte) (h : Memory.rising m) :
    Memory.rising (Memory.write c m a x) := by
  unfold Memory.write
  split
  · exact Memory.erase_rising a h
  · exact Memory.insert_rising a x h

/-- A write to an existing address keeps the canonical form. -/
theorem Memory.write_wf {c : Config} {m : Memory} {a : Nat} (x : Byte) (h : Memory.wf c m) (ha : a < c.memSize) :
    Memory.wf c (Memory.write c m a x) := by
  refine ⟨Memory.write_rising a x h.1, fun e he => ?_⟩
  unfold Memory.write at he
  split at he
  · exact h.2 e (Memory.mem_of_mem_erase he)
  · next hx =>
    rcases Memory.mem_insert he with rfl | he'
    · exact ⟨ha, hx⟩
    · exact h.2 e he'

theorem Memory.writeAll_rising {c : Config} {m : Memory} (a : Nat) (xs : List Byte) (h : Memory.rising m) :
    Memory.rising (Memory.writeAll c m a xs) := by
  induction xs generalizing m a with
  | nil => exact h
  | cons x xs ih => exact ih (a + 1) (Memory.write_rising a x h)

/-- A block write to existing addresses keeps the canonical form. -/
theorem Memory.writeAll_wf {c : Config} {m : Memory} {a : Nat} (xs : List Byte) (h : Memory.wf c m)
    (ha : a + xs.length ≤ c.memSize) : Memory.wf c (Memory.writeAll c m a xs) := by
  induction xs generalizing m a with
  | nil => exact h
  | cons x xs ih =>
    simp only [List.length_cons] at ha
    exact ih (Memory.write_wf x h (by omega)) (by omega)

/-- Reading after a block is written: the block's byte inside it, every other address as before. -/
theorem Memory.read_writeAll {c : Config} {m : Memory} (a b : Nat) (xs : List Byte) (h : Memory.rising m) :
    Memory.read c (Memory.writeAll c m a xs) b =
      if hb : a ≤ b ∧ b < a + xs.length then xs[b - a]'(by omega) else Memory.read c m b := by
  induction xs generalizing m a with
  | nil => rw [dif_neg (by simp)]; rfl
  | cons x xs ih =>
    rw [Memory.writeAll, ih (a + 1) (Memory.write_rising a x h), Memory.read_write a b x h]
    by_cases h0 : b = a
    · have e : b - a = 0 := by omega
      rw [dif_neg (by omega), if_pos h0, dif_pos (by simp; omega)]
      simp only [e, List.getElem_cons_zero]
    · rw [if_neg h0]
      by_cases h1 : a + 1 ≤ b ∧ b < a + 1 + xs.length
      · have e : b - a = b - (a + 1) + 1 := by omega
        rw [dif_pos h1, dif_pos (by simp; omega)]
        simp only [e, List.getElem_cons_succ]
      · rw [dif_neg h1, dif_neg (by simp; omega)]

@[simp] theorem Memory.wf_nil (c : Config) : Memory.wf c [] := by simp [Memory.wf]

/-- An unlisted address reads as its reset content. -/
@[simp] theorem Memory.read_nil (c : Config) (a : Nat) : Memory.read c [] a = background c a := rfl

/-! ### The same over a state -/

variable (s : State)

/-- Reading after `writeBytes`: the written byte inside the block, every other address as before. -/
theorem writeBytes_readByte (a : Nat) (bs : List Byte) (k : Nat) (h : Memory.wf s.cfg s.mem) :
    (s.writeBytes a bs).readByte k =
      if hk : a ≤ k ∧ k < a + bs.length then bs[k - a]'(by omega) else s.readByte k :=
  Memory.read_writeAll a k bs h.1

/-- `writeBytes` changes memory alone. -/
theorem writeBytes_eq (a : Nat) (bs : List Byte) :
    s.writeBytes a bs = { s with mem := Memory.writeAll s.cfg s.mem a bs } := rfl

@[simp] theorem writeBytes_cfg (a : Nat) (bs : List Byte) : (s.writeBytes a bs).cfg = s.cfg := rfl
@[simp] theorem writeBytes_v (a : Nat) (bs : List Byte) : (s.writeBytes a bs).v = s.v := rfl
@[simp] theorem writeBytes_i (a : Nat) (bs : List Byte) : (s.writeBytes a bs).i = s.i := rfl
@[simp] theorem writeBytes_pc (a : Nat) (bs : List Byte) : (s.writeBytes a bs).pc = s.pc := rfl
@[simp] theorem writeBytes_dt (a : Nat) (bs : List Byte) : (s.writeBytes a bs).dt = s.dt := rfl
@[simp] theorem writeBytes_st (a : Nat) (bs : List Byte) : (s.writeBytes a bs).st = s.st := rfl
@[simp] theorem writeBytes_stack (a : Nat) (bs : List Byte) : (s.writeBytes a bs).stack = s.stack := rfl
@[simp] theorem writeBytes_fb (a : Nat) (bs : List Byte) : (s.writeBytes a bs).fb = s.fb := rfl
@[simp] theorem writeBytes_key (a : Nat) (bs : List Byte) : (s.writeBytes a bs).key = s.key := rfl
@[simp] theorem writeBytes_status (a : Nat) (bs : List Byte) : (s.writeBytes a bs).status = s.status := rfl
@[simp] theorem writeBytes_draws (a : Nat) (bs : List Byte) : (s.writeBytes a bs).draws = s.draws := rfl
@[simp] theorem writeBytes_getV (a : Nat) (bs : List Byte) (r : Reg) : (s.writeBytes a bs).getV r = s.getV r := rfl

@[simp] theorem readBytes_length (a n : Nat) : (s.readBytes a n).length = n := by
  induction n generalizing a with
  | zero => rfl
  | succ n ih => simp [State.readBytes, ih]

/-- Byte k of `readBytes a n` is the byte at a + k. -/
theorem readBytes_getElem (a n k : Nat) (h : k < (s.readBytes a n).length) :
    (s.readBytes a n)[k] = s.readByte (a + k) := by
  induction n generalizing a k with
  | zero => simp [State.readBytes] at h
  | succ n ih =>
    cases k with
    | zero => simp [State.readBytes]
    | succ k =>
      simp only [State.readBytes, List.getElem_cons_succ]
      rw [ih]
      congr 1
      omega

end Sys2Proof.Machine
end

