-- ==== Sys2Proof/Laws/Access.lean ====
section
/-! SUPPORT. What each shared operation of Machine/Ops.lean and Operands.lean can answer: the checks, MemRead,
MemWrite, fetch, the call stack, the transaction and the key test. -/

namespace Sys2Proof.Machine

variable (s : State)

/-! ### Checks (20 R80, R81) -/

/-- The lowest address of a block that is not below a limit. -/
theorem lowestFailing_below (m a n : Nat) :
    lowestFailing (fun k => decide (k < m)) a n = if n = 0 ∨ a + n ≤ m then none else some (max a m) := by
  induction n generalizing a with
  | zero => simp [lowestFailing]
  | succ n ih =>
    simp only [lowestFailing, decide_eq_true_eq, ih]
    by_cases h : a < m
    · rw [if_pos h]
      by_cases h2 : a + (n + 1) ≤ m
      · rw [if_pos (by omega), if_pos (by omega)]
      · rw [if_neg (by omega), if_neg (by omega)]
        congr 1; omega
    · rw [if_neg h, if_neg (by omega)]
      congr 1; omega

/-- The lowest address of a block that is below a floor: its first one. -/
theorem lowestFailing_above (m a n : Nat) :
    lowestFailing (fun k => decide (m ≤ k)) a n = if n = 0 ∨ m ≤ a then none else some a := by
  induction n generalizing a with
  | zero => simp [lowestFailing]
  | succ n ih =>
    simp only [lowestFailing, decide_eq_true_eq, ih]
    by_cases h : m ≤ a
    · rw [if_pos h, if_pos (by omega), if_pos (by omega)]
    · rw [if_neg h, if_neg (by omega)]

/-- The data range check fails exactly where the block is not empty and reaches past memory (20 R80). -/
theorem checkRange_eq (w : Word) (a n : Nat) :
    s.checkRange w a n =
      if n = 0 ∨ a + n ≤ s.cfg.memSize then none
      else some (.memoryOutOfRange s.pc0 w (max a s.cfg.memSize)) := by
  rw [State.checkRange, lowestFailing_below]
  split <;> rfl

/-- The reserved-write check fails exactly where memory is protected and a non-empty block starts below 0x200
(20 R81). -/
theorem checkReserved_eq (w : Word) (a n : Nat) :
    s.checkReserved w a n =
      if s.cfg.protectReserved = false ∨ n = 0 ∨ 0x200 ≤ a then none
      else some (.reservedWrite s.pc0 w a) := by
  rw [State.checkReserved, lowestFailing_above]
  by_cases hp : s.cfg.protectReserved
  · by_cases h : n = 0 ∨ 0x200 ≤ a <;> simp [hp, h]
  · simp [hp]

/-! ### MemRead and MemWrite (00 R13) -/

/-- MemRead inside memory, or of no byte. -/
theorem memRead_ok {w : Word} {a n : Nat} (h : n = 0 ∨ a + n ≤ s.cfg.memSize) :
    memRead s w a n = .ok (s.readBytes a n) := by
  rw [memRead, checkRange_eq, if_pos h]

/-- MemRead past the end of memory. -/
theorem memRead_outOfRange {w : Word} {a n : Nat} (h : ¬ (n = 0 ∨ a + n ≤ s.cfg.memSize)) :
    memRead s w a n = .error (.memoryOutOfRange s.pc0 w (max a s.cfg.memSize)) := by
  rw [memRead, checkRange_eq, if_neg h]

/-- MemWrite inside memory, clear of the reserved area where that is protected. -/
theorem memWrite_ok {w : Word} {a : Nat} {bs : List Byte} (h : a + bs.length ≤ s.cfg.memSize)
    (hp : s.cfg.protectReserved = true → 0x200 ≤ a) : memWrite s w a bs = .ok (s.writeBytes a bs) := by
  rw [memWrite, checkRange_eq, if_pos (.inr h), checkReserved_eq, if_pos]
  cases hc : s.cfg.protectReserved
  · exact .inl rfl
  · exact .inr (.inr (hp hc))

/-- MemWrite past the end of memory: the range check comes first (40 R148). -/
theorem memWrite_outOfRange {w : Word} {a : Nat} {bs : List Byte} (h0 : bs ≠ [])
    (h : s.cfg.memSize < a + bs.length) :
    memWrite s w a bs = .error (.memoryOutOfRange s.pc0 w (max a s.cfg.memSize)) := by
  have : bs.length ≠ 0 := by simpa using h0
  rw [memWrite, checkRange_eq, if_neg (by omega)]

/-- MemWrite into the protected area. -/
theorem memWrite_reserved {w : Word} {a : Nat} {bs : List Byte} (h0 : bs ≠ [])
    (h : a + bs.length ≤ s.cfg.memSize) (hp : s.cfg.protectReserved = true) (ha : a < 0x200) :
    memWrite s w a bs = .error (.reservedWrite s.pc0 w a) := by
  have : bs.length ≠ 0 := by simpa using h0
  rw [memWrite, checkRange_eq, if_pos (.inr h), checkReserved_eq, if_neg]
  simp [hp, h0]; omega

/-- If MemWrite answers a state, the block was allowed and the state is the one with the bytes written. -/
theorem memWrite_cases {w : Word} {a : Nat} {bs : List Byte} {t : State} (h : memWrite s w a bs = .ok t) :
    t = s.writeBytes a bs ∧ (bs = [] ∨ a + bs.length ≤ s.cfg.memSize) ∧
      (s.cfg.protectReserved = true → bs = [] ∨ 0x200 ≤ a) := by
  rw [memWrite, checkRange_eq, checkReserved_eq] at h
  split at h
  · cases h
  · next h1 =>
    split at h
    · cases h
    · next h2 =>
      cases h
      have h1' : bs.length = 0 ∨ a + bs.length ≤ s.cfg.memSize := by
        by_contra hc; rw [if_neg hc] at h1; cases h1
      have h2' : s.cfg.protectReserved = false ∨ bs.length = 0 ∨ 0x200 ≤ a := by
        by_contra hc; rw [if_neg hc] at h2; cases h2
      refine ⟨rfl, by simpa using h1', fun hp => ?_⟩
      rcases h2' with h' | h'
      · simp [hp] at h'
      · simpa using h'

/-- If MemRead answers bytes, they are the block's. -/
theorem memRead_cases {w : Word} {a n : Nat} {bs : List Byte} (h : memRead s w a n = .ok bs) :
    bs = s.readBytes a n ∧ (n = 0 ∨ a + n ≤ s.cfg.memSize) := by
  by_cases hc : n = 0 ∨ a + n ≤ s.cfg.memSize
  · rw [memRead_ok s hc] at h; cases h; exact ⟨rfl, hc⟩
  · rw [memRead_outOfRange s hc] at h; cases h

/-! ### Faults in the records the shared operations raise (60 R321) -/

theorem memRead_error {w : Word} {a n : Nat} {f : Fault} (h : memRead s w a n = .error f) :
    f = .memoryOutOfRange s.pc0 w (max a s.cfg.memSize) := by
  by_cases hc : n = 0 ∨ a + n ≤ s.cfg.memSize
  · rw [memRead_ok s hc] at h; cases h
  · rw [memRead_outOfRange s hc] at h; cases h; rfl

theorem memWrite_error {w : Word} {a : Nat} {bs : List Byte} {f : Fault} (h : memWrite s w a bs = .error f) :
    f = .memoryOutOfRange s.pc0 w (max a s.cfg.memSize) ∨ f = .reservedWrite s.pc0 w a := by
  rw [memWrite, checkRange_eq, checkReserved_eq] at h
  split at h
  · next h1 => split at h1 <;> cases h1; cases h; exact .inl rfl
  · split at h
    · next h2 => split at h2 <;> cases h2; cases h; exact .inr rfl
    · cases h

/-! ### Fetch (40 R140, R142, R144) -/

/-- Fetch of an instruction inside memory: the two bytes at PC, decoded. -/
theorem fetchInstr_ok (h : s.pc.toNat + 1 < s.cfg.memSize) {i : Instr}
    (hd : decode (wordOfBytes (s.readByte s.pc.toNat) (s.readByte (s.pc.toNat + 1))) = .ok i) :
    fetchInstr s = .ok i := by
  simp only [fetchInstr, fetch, if_pos h, hd]

/-- If an instruction is fetched, PC is in range and the two bytes at PC decode to it. -/
theorem fetchInstr_cases {i : Instr} (h : fetchInstr s = .ok i) :
    s.pc.toNat + 1 < s.cfg.memSize ∧
      decode (wordOfBytes (s.readByte s.pc.toNat) (s.readByte (s.pc.toNat + 1))) = .ok i := by
  by_cases hc : s.pc.toNat + 1 < s.cfg.memSize
  · simp only [fetchInstr, fetch, if_pos hc] at h
    split at h
    · next hd => cases h; exact ⟨hc, hd⟩
    · cases h
  · simp [fetchInstr, fetch, if_neg hc] at h

/-- The two faults of a fetch, and when each arises (40 R148). -/
theorem fetchInstr_error {f : Fault} (h : fetchInstr s = .error f) :
    (s.cfg.memSize ≤ s.pc.toNat + 1 ∧ f = .fetchOutOfRange s.pc) ∨
    (s.pc.toNat + 1 < s.cfg.memSize ∧
      f = .unrecognizedOpcode s.pc (wordOfBytes (s.readByte s.pc.toNat) (s.readByte (s.pc.toNat + 1)))) := by
  by_cases hc : s.pc.toNat + 1 < s.cfg.memSize
  · simp only [fetchInstr, fetch, if_pos hc] at h
    split at h
    · cases h
    · cases h; exact .inr ⟨hc, rfl⟩
  · simp only [fetchInstr, fetch, if_neg hc] at h
    cases h; exact .inl ⟨by omega, rfl⟩

/-! ### The call stack (41 R160, R162) -/

theorem popStack_concat {w : Word} {l : List Word} {a : Word} (h : s.stack = l ++ [a]) :
    popStack s w = .ok (a, s.setStack l) := by
  simp [popStack, h]

theorem popStack_empty {w : Word} (h : s.stack = []) : popStack s w = .error (.stackUnderflow s.pc0 w) := by
  simp [popStack, h]

theorem pushStack_ok {w a : Word} (h : s.stack.length < s.cfg.stackDepth) :
    pushStack s w a = .ok (s.setStack (s.stack ++ [a])) := if_pos h

theorem pushStack_full {w a : Word} (h : s.cfg.stackDepth ≤ s.stack.length) :
    pushStack s w a = .error (.stackOverflow s.pc0 w) := if_neg (by omega)

/-- What `popStack` can answer. -/
theorem popStack_cases (w : Word) :
    (∃ l a, s.stack = l ++ [a] ∧ popStack s w = .ok (a, s.setStack l)) ∨
    (s.stack = [] ∧ popStack s w = .error (.stackUnderflow s.pc0 w)) := by
  rcases List.eq_nil_or_concat s.stack with h | ⟨l, a, h⟩
  · exact .inr ⟨h, popStack_empty s h⟩
  · have h : s.stack = l ++ [a] := by simpa using h
    exact .inl ⟨l, a, h, popStack_concat s h⟩

/-! ### The transaction and fault delivery (40 R145, 60 R322) -/

/-- Taking a fault changes PC and status alone. -/
theorem takeFault_eq (p : Word) (f : Fault) : takeFault p f s = .next { s with pc := p, status := .faulted f } := rfl

@[simp] theorem transact_ok (t : State) : transact s (.ok t) = .next t := rfl

@[simp] theorem transact_error (f : Fault) :
    transact s (.error f) = .next { s with pc := s.pc0, status := .faulted f } := rfl

/-- A transaction commits its state or takes its fault; it never stops. -/
theorem transact_cases {r : Except Fault State} {t : State} (h : transact s r = .next t) :
    r = .ok t ∨ ∃ f, r = .error f ∧ t = { s with pc := s.pc0, status := .faulted f } := by
  cases r with
  | ok u => cases h; exact .inl rfl
  | error f => cases h; exact .inr ⟨f, rfl, rfl⟩

theorem transact_next (r : Except Fault State) : ∃ t, transact s r = .next t := by
  cases r <;> exact ⟨_, rfl⟩

/-- PC of the instruction being executed, after PC was advanced (10 R34). -/
@[simp] theorem advancePc_pc0 : s.advancePc.pc0 = s.pc := by
  simp [State.advancePc, State.pc0, State.setPc]

/-! ### The keypad (45 R291, R292) -/

/-- A key found first is pressed and no lower one is (45 R291). -/
theorem firstPressed_some {k : Reg} (h : s.firstPressed = some k) :
    s.key[k.val] = true ∧ ∀ j : Reg, j < k → s.key[j.val] = false := by
  obtain ⟨hk, as, bs, hl, hno⟩ := List.find?_eq_some_iff_append.mp h
  refine ⟨by simpa using hk, fun j hj => ?_⟩
  have hs : (List.finRange 16).Pairwise (· < ·) := List.pairwise_lt_finRange 16
  have hm : j ∈ List.finRange 16 := List.mem_finRange j
  rw [hl] at hm hs
  rcases List.mem_append.mp hm with h1 | h1
  · simpa using hno j h1
  · have hk' := (List.pairwise_append.mp hs).2.1
    rcases List.mem_cons.mp h1 with rfl | h2
    · exact absurd hj (lt_irrefl _)
    · exact absurd ((List.pairwise_cons.mp hk').1 j h2) (not_lt.mpr hj.le)

/-- No key found: none is pressed (45 R291). -/
theorem firstPressed_none : s.firstPressed = none ↔ ∀ k : Reg, s.key[k.val] = false := by
  simp [State.firstPressed, List.find?_eq_none]

/-- A pressed key with none lower is the one found (45 R291). -/
theorem firstPressed_eq {k : Reg} (hk : s.key[k.val] = true) (hl : ∀ j : Reg, j < k → s.key[j.val] = false) :
    s.firstPressed = some k := by
  cases h : s.firstPressed with
  | none => simp [(firstPressed_none s).mp h k] at hk
  | some j =>
    obtain ⟨hj, hlow⟩ := firstPressed_some s h
    rcases lt_trichotomy j k with h' | h' | h'
    · simp [hl j h'] at hj
    · rw [h']
    · simp [hlow k h'] at hk

/-- The fault of a key test names a register value of 16 or more. -/
theorem keyTest_error {w : Word} {b : Byte} {f : Fault} (h : s.keyTest w b = .error f) :
    s.cfg.keySkipMode = .keyIndexed ∧ 16 ≤ b.toNat ∧ f = .keyIndexOutOfRange s.pc0 w b := by
  unfold State.keyTest at h
  split at h
  · next hm =>
    split at h
    · cases h
    · next hb => cases h; exact ⟨hm, by omega, rfl⟩
  · cases h

/-! ### Digits and addresses (43 R232, R233) -/

@[simp] theorem bcdDigits_length (b : Byte) : (bcdDigits b).length = 3 := rfl

@[simp] theorem zext16_toNat (b : Byte) : (zext16 b).toNat = b.toNat := by
  have := b.isLt
  rw [zext16, BitVec.toNat_setWidth]; omega

theorem fontAddress_toNat (b : Byte) : (fontAddress b).toNat = 5 * b.toNat := by
  have := b.isLt
  rw [fontAddress, BitVec.toNat_ofNat]; omega

end Sys2Proof.Machine
end

