-- ==== Sys2Proof/Laws/Decode.lean ====
section
/-! SUPPORT. The laws of instruction words: fields and forms as numbers, masks, and that the decoder answers the one
row a word satisfies. -/

namespace Sys2Proof

/-! ### Forms and fields as numbers -/

theorem formNNN_toNat (c : BitVec 4) (nnn : Word) :
    (formNNN c nnn).toNat = 0x1000 * c.toNat + nnn.toNat % 0x1000 := by
  rw [formNNN, BitVec.toNat_append, ← Nat.shiftLeft_add_eq_or_of_lt (BitVec.isLt _), Nat.shiftLeft_eq,
    BitVec.extractLsb'_toNat, Nat.shiftRight_zero]
  omega

theorem formXKK_toNat (c : BitVec 4) (x : Reg) (kk : Byte) :
    (formXKK c x kk).toNat = 0x1000 * c.toNat + 0x100 * x.val + kk.toNat := by
  have hx : (nibble x).toNat = x.val := rfl
  rw [formXKK, BitVec.toNat_append, ← Nat.shiftLeft_add_eq_or_of_lt kk.isLt, BitVec.toNat_append,
    ← Nat.shiftLeft_add_eq_or_of_lt (nibble x).isLt, Nat.shiftLeft_eq, Nat.shiftLeft_eq]
  omega

theorem formXYN_toNat (c : BitVec 4) (x y : Reg) (n : BitVec 4) :
    (formXYN c x y n).toNat = 0x1000 * c.toNat + 0x100 * x.val + 0x10 * y.val + n.toNat := by
  have hx : (nibble x).toNat = x.val := rfl
  have hy : (nibble y).toNat = y.val := rfl
  rw [formXYN, BitVec.toNat_append, ← Nat.shiftLeft_add_eq_or_of_lt n.isLt, BitVec.toNat_append,
    ← Nat.shiftLeft_add_eq_or_of_lt (nibble y).isLt, BitVec.toNat_append,
    ← Nat.shiftLeft_add_eq_or_of_lt (nibble x).isLt, Nat.shiftLeft_eq, Nat.shiftLeft_eq, Nat.shiftLeft_eq]
  omega

theorem fieldX_val (w : Word) : (fieldX w).val = w.toNat / 0x100 % 0x10 := by
  show (w.extractLsb' 8 4).toNat = _
  rw [BitVec.extractLsb'_toNat, Nat.shiftRight_eq_div_pow]

theorem fieldY_val (w : Word) : (fieldY w).val = w.toNat / 0x10 % 0x10 := by
  show (w.extractLsb' 4 4).toNat = _
  rw [BitVec.extractLsb'_toNat, Nat.shiftRight_eq_div_pow]

theorem fieldN_val (w : Word) : (fieldN w).val = w.toNat % 0x10 := by
  show (w.extractLsb' 0 4).toNat = _
  rw [BitVec.extractLsb'_toNat, Nat.shiftRight_zero]

theorem fieldKK_toNat (w : Word) : (fieldKK w).toNat = w.toNat % 0x100 := by
  rw [fieldKK, BitVec.extractLsb'_toNat, Nat.shiftRight_zero]

theorem fieldNNN_toNat (w : Word) : (fieldNNN w).toNat = w.toNat % 0x1000 := by
  rw [fieldNNN, BitVec.toNat_setWidth, BitVec.extractLsb'_toNat, Nat.shiftRight_zero]
  omega

/-! ### Fields of a form -/

@[simp] theorem fieldX_formXKK (c : BitVec 4) (x : Reg) (kk : Byte) : fieldX (formXKK c x kk) = x := by
  have := kk.isLt
  ext; rw [fieldX_val, formXKK_toNat]; omega

@[simp] theorem fieldKK_formXKK (c : BitVec 4) (x : Reg) (kk : Byte) : fieldKK (formXKK c x kk) = kk := by
  have := kk.isLt
  apply BitVec.eq_of_toNat_eq; rw [fieldKK_toNat, formXKK_toNat]; omega

@[simp] theorem fieldX_formXYN (c : BitVec 4) (x y : Reg) (n : BitVec 4) : fieldX (formXYN c x y n) = x := by
  have := n.isLt
  ext; rw [fieldX_val, formXYN_toNat]; omega

@[simp] theorem fieldY_formXYN (c : BitVec 4) (x y : Reg) (n : BitVec 4) : fieldY (formXYN c x y n) = y := by
  have := n.isLt
  ext; rw [fieldY_val, formXYN_toNat]; omega

@[simp] theorem fieldN_formXYN (c : BitVec 4) (x y n : Reg) : fieldN (formXYN c x y (nibble n)) = n := by
  have : (nibble n).toNat = n.val := rfl
  ext; rw [fieldN_val, formXYN_toNat]; omega

theorem fieldNNN_formNNN (c : BitVec 4) {nnn : Word} (h : Instr.addressFits nnn = true) :
    fieldNNN (formNNN c nnn) = nnn := by
  have : nnn.toNat ≤ 0xFFF := by simpa [Instr.addressFits] using h
  apply BitVec.eq_of_toNat_eq; rw [fieldNNN_toNat, formNNN_toNat]; omega

/-- A decoded address is in the range R102 gives it. -/
@[simp] theorem addressFits_fieldNNN (w : Word) : Instr.addressFits (fieldNNN w) = true := by
  simp only [Instr.addressFits, fieldNNN_toNat, decide_eq_true_eq]; omega

/-! ### Masks -/

theorem and_F000_toNat (w : Word) : (w &&& 0xF000#16).toNat = 0x1000 * (w.toNat / 0x1000) := by
  have h : w &&& 0xF000#16 = (w >>> 12) <<< 12 := by
    ext i hi; interval_cases i <;> simp
  have := w.isLt
  rw [h, BitVec.toNat_shiftLeft, BitVec.toNat_ushiftRight, Nat.shiftLeft_eq, Nat.shiftRight_eq_div_pow]
  omega

/-- The top nibble and `k` low bits of a word, as a number. -/
theorem and_class_low_toNat (w : Word) (k : Nat) (hk : k ≤ 12) :
    (w &&& (0xF000#16 ||| BitVec.ofNat 16 (2 ^ k - 1))).toNat = 0x1000 * (w.toNat / 0x1000) + w.toNat % 2 ^ k := by
  have hpow : 2 ^ k ≤ 2 ^ 12 := Nat.pow_le_pow_right (by decide) hk
  have hlow : (w &&& BitVec.ofNat 16 (2 ^ k - 1)).toNat = w.toNat % 2 ^ k := by
    rw [BitVec.toNat_and, BitVec.toNat_ofNat, Nat.mod_eq_of_lt (by omega), Nat.and_two_pow_sub_one_eq_mod]
  have hlt : w.toNat % 2 ^ k < 2 ^ 12 := lt_of_lt_of_le (Nat.mod_lt _ (Nat.two_pow_pos k)) hpow
  have hmul : 0x1000 * (w.toNat / 0x1000) = (w.toNat / 0x1000) <<< 12 := by rw [Nat.shiftLeft_eq]; omega
  rw [BitVec.and_or_distrib_left, BitVec.toNat_or, and_F000_toNat, hlow, hmul, ← Nat.shiftLeft_add_eq_or_of_lt hlt]

theorem and_F00F_toNat (w : Word) :
    (w &&& 0xF00F#16).toNat = 0x1000 * (w.toNat / 0x1000) + w.toNat % 0x10 :=
  and_class_low_toNat w 4 (by decide)

theorem and_F0FF_toNat (w : Word) :
    (w &&& 0xF0FF#16).toNat = 0x1000 * (w.toNat / 0x1000) + w.toNat % 0x100 :=
  and_class_low_toNat w 8 (by decide)

theorem and_FFFF (w : Word) : w &&& 0xFFFF#16 = w := by
  ext i hi; interval_cases i <;> simp

theorem and_F000_eq_iff (w p : Word) : w &&& 0xF000#16 = p ↔ 0x1000 * (w.toNat / 0x1000) = p.toNat := by
  rw [← and_F000_toNat w]; exact BitVec.toNat_inj.symm

theorem and_F00F_eq_iff (w p : Word) :
    w &&& 0xF00F#16 = p ↔ 0x1000 * (w.toNat / 0x1000) + w.toNat % 0x10 = p.toNat := by
  rw [← and_F00F_toNat w]; exact BitVec.toNat_inj.symm

theorem and_F0FF_eq_iff (w p : Word) :
    w &&& 0xF0FF#16 = p ↔ 0x1000 * (w.toNat / 0x1000) + w.toNat % 0x100 = p.toNat := by
  rw [← and_F0FF_toNat w]; exact BitVec.toNat_inj.symm

@[simp] theorem formNNN_class (c : BitVec 4) (nnn : Word) : formNNN c nnn &&& 0xF000#16 = formNNN c 0 := by
  apply BitVec.eq_of_toNat_eq; rw [and_F000_toNat, formNNN_toNat, formNNN_toNat]; simp; omega

@[simp] theorem formXKK_class (c : BitVec 4) (x : Reg) (kk : Byte) :
    formXKK c x kk &&& 0xF000#16 = formNNN c 0 := by
  have := kk.isLt
  apply BitVec.eq_of_toNat_eq; rw [and_F000_toNat, formXKK_toNat, formNNN_toNat]; simp; omega

@[simp] theorem formXKK_low (c : BitVec 4) (x : Reg) (kk : Byte) :
    formXKK c x kk &&& 0xF0FF#16 = formXKK c 0 kk := by
  have := kk.isLt
  apply BitVec.eq_of_toNat_eq; rw [and_F0FF_toNat, formXKK_toNat, formXKK_toNat]; simp; omega

@[simp] theorem formXYN_class (c : BitVec 4) (x y : Reg) (n : BitVec 4) :
    formXYN c x y n &&& 0xF000#16 = formNNN c 0 := by
  have := n.isLt
  apply BitVec.eq_of_toNat_eq; rw [and_F000_toNat, formXYN_toNat, formNNN_toNat]; simp; omega

@[simp] theorem formXYN_ends (c : BitVec 4) (x y : Reg) (n : BitVec 4) :
    formXYN c x y n &&& 0xF00F#16 = formXYN c 0 0 n := by
  have := n.isLt
  apply BitVec.eq_of_toNat_eq; rw [and_F00F_toNat, formXYN_toNat, formXYN_toNat]; simp; omega

/-! ### The table -/

/-- Two rows that one word satisfies agree on the bits both fix. -/
theorem OpcodeRow.agree {r q : OpcodeRow} {w : Word} (hr : r.accepts w = true) (hq : q.accepts w = true) :
    r.pattern &&& q.mask = q.pattern &&& r.mask := by
  have h1 : w &&& r.mask = r.pattern := by simpa [OpcodeRow.accepts] using hr
  have h2 : w &&& q.mask = q.pattern := by simpa [OpcodeRow.accepts] using hq
  rw [← h1, ← h2, BitVec.and_assoc, BitVec.and_assoc, BitVec.and_comm r.mask]

/-- Any two different rows of the table disagree on a bit both fix (30 R104). -/
theorem opcodeTable_disjoint :
    opcodeTable.Pairwise (fun r q => r.pattern &&& q.mask ≠ q.pattern &&& r.mask) := by decide

/-- In a list of rows that disagree pairwise, the row a word satisfies is the one found. -/
theorem find_of_accepts {l : List OpcodeRow} {r : OpcodeRow} {w : Word}
    (hl : l.Pairwise (fun r q => r.pattern &&& q.mask ≠ q.pattern &&& r.mask)) (hr : r ∈ l)
    (hw : r.accepts w = true) : l.find? (·.accepts w) = some r := by
  induction l with
  | nil => cases hr
  | cons q rest ih =>
    have h' := List.pairwise_cons.mp hl
    rcases List.mem_cons.mp hr with rfl | hr'
    · exact List.find?_cons_of_pos hw
    · have : ¬ q.accepts w = true := fun hq => h'.1 r hr' (OpcodeRow.agree hq hw)
      simp only [List.find?_cons, Bool.eq_false_iff.mpr this, ih h'.2 hr']

/-- A word decodes by the row it satisfies (30 R104). -/
theorem decode_of_accepts {r : OpcodeRow} {w : Word} (hr : r ∈ opcodeTable) (hw : r.accepts w = true) :
    decode w = .ok (r.build w) := by
  rw [decode, find_of_accepts opcodeTable_disjoint hr hw]

/-- What `decode` can answer: a row of the table accepts the word, or none does. -/
theorem decode_cases (w : Word) :
    (∃ r ∈ opcodeTable, r.accepts w = true ∧ decode w = .ok (r.build w)) ∨
    ((∀ r ∈ opcodeTable, ¬ r.accepts w = true) ∧ decode w = .error (.unrecognized w)) := by
  by_cases h : ∃ r ∈ opcodeTable, r.accepts w = true
  · obtain ⟨r, hr, hw⟩ := h
    exact .inl ⟨r, hr, hw, decode_of_accepts hr hw⟩
  · have h' : ∀ r ∈ opcodeTable, ¬ r.accepts w = true := fun r hr hw => h ⟨r, hr, hw⟩
    exact .inr ⟨h', by rw [decode, List.find?_eq_none.mpr h']⟩

theorem OpcodeRow.accepts_iff (r : OpcodeRow) (w : Word) : r.accepts w = true ↔ w &&& r.mask = r.pattern := by
  simp [OpcodeRow.accepts]

/-- A word is Unrecognized exactly when no row accepts it (30 R104). -/
theorem decode_unrecognized_iff (w : Word) :
    decode w = .error (.unrecognized w) ↔ ∀ r ∈ opcodeTable, ¬ (w &&& r.mask = r.pattern) := by
  simp only [← OpcodeRow.accepts_iff]
  rcases decode_cases w with ⟨r, hr, hw, hd⟩ | ⟨h, hd⟩
  · rw [hd]
    exact ⟨fun h => (Except.noConfusion rfl rfl (heq_of_eq h)), fun h => absurd hw (h r hr)⟩
  · exact ⟨fun _ => h, fun _ => hd⟩

/-! ### Bytes -/

theorem wordOfBytes_toNat (hi lo : Byte) : (wordOfBytes hi lo).toNat = 0x100 * hi.toNat + lo.toNat := by
  rw [wordOfBytes, BitVec.toNat_append, ← Nat.shiftLeft_add_eq_or_of_lt lo.isLt, Nat.shiftLeft_eq]
  omega

/-- The two bytes of a word make the word (20 R77). -/
@[simp] theorem wordOfBytes_bytes (w : Word) : wordOfBytes (highByte w) (lowByte w) = w := by
  have := w.isLt
  apply BitVec.eq_of_toNat_eq
  rw [wordOfBytes_toNat, highByte, lowByte, BitVec.extractLsb'_toNat, BitVec.extractLsb'_toNat,
    Nat.shiftRight_zero, Nat.shiftRight_eq_div_pow]
  omega

end Sys2Proof
end

