-- ==== Sys2Proof/Laws/Draw.lean ====
section
/-! SUPPORT. The laws of pixels: reading after one pixel is inverted, that a framebuffer is its pixels, and what drawing
one sprite byte does. -/

namespace Sys2Proof.Machine

/-- A pixel after one pixel is inverted. -/
theorem pixelAt_flipPixel (f : Framebuffer) (r q : Fin 32) (c d : Fin 64) :
    pixelAt (flipPixel f r c) q d = if q = r ∧ d = c then !pixelAt f q d else pixelAt f q d := by
  unfold pixelAt flipPixel
  rw [Vector.getElem_set]
  by_cases hq : r.val = q.val
  · have hqr : q = r := Fin.ext hq.symm
    rw [if_pos hq, BitVec.getLsbD_xor, BitVec.getLsbD_twoPow]
    have h63 : 63 - c.val < 64 := by omega
    by_cases hd : d = c
    · simp [hd, hqr, h63]
    · have : 63 - c.val ≠ 63 - d.val := fun h => hd (Fin.ext (by omega))
      simp [hd, hqr, this]
  · have hqr : q ≠ r := fun h => hq (by rw [h])
    simp [if_neg hq, hqr]

/-- A framebuffer is determined by its 32 × 64 pixels. -/
theorem framebuffer_ext {f g : Framebuffer} (h : ∀ r c, pixelAt f r c = pixelAt g r c) : f = g := by
  apply Vector.ext
  intro r hr
  apply BitVec.eq_of_getLsbD_eq
  intro b hb
  have := h ⟨r, hr⟩ ⟨63 - b, by omega⟩
  have e : 63 - (63 - b) = b := by omega
  simpa [pixelAt, e] using this

/-- The cleared framebuffer has every pixel off (44 R260). -/
@[simp] theorem pixelAt_clear (r : Fin 32) (c : Fin 64) : pixelAt (Vector.replicate 32 0) r c = false := by
  simp [pixelAt]

/-- Distinct pixels of one sprite row reach distinct columns (44 R266). -/
theorem spriteColumn_inj {cx k j : Nat} (hk : k < 8) (hj : j < 8) (h : spriteColumn cx k = spriteColumn cx j) :
    k = j := by
  have := congrArg Fin.val h
  simp only [spriteColumn, Fin.val_ofNat] at this
  omega

/-- Distinct rows of one sprite reach distinct framebuffer rows (44 R266). -/
theorem spriteRow_inj {cy d e : Nat} (hd : d < 32) (he : e < 32) (h : spriteRow cy d = spriteRow cy e) : d = e := by
  have := congrArg Fin.val h
  simp only [spriteRow, Fin.val_ofNat] at this
  omega

/-- Some pixels of one sprite byte drawn: each pixel they cover is inverted, and the collision bit is raised when one
of them was on (44 R263, R266). -/
theorem foldl_drawPixel (cx : Nat) (b : Byte) (r : Fin 32) (ks : List Nat) (hn : ks.Nodup) (h8 : ∀ k ∈ ks, k < 8)
    (acc : Framebuffer × Bool) :
    (∀ q d, pixelAt (ks.foldl (drawPixel cx b r) acc).1 q d =
      (pixelAt acc.1 q d ^^ decide (q = r ∧ ∃ k ∈ ks, spriteBit b k = true ∧ d = spriteColumn cx k))) ∧
    (ks.foldl (drawPixel cx b r) acc).2 =
      (acc.2 || decide (∃ k ∈ ks, spriteBit b k = true ∧ pixelAt acc.1 r (spriteColumn cx k) = true)) := by
  induction ks generalizing acc with
  | nil => simp
  | cons k ks ih =>
    rw [List.nodup_cons] at hn
    obtain ⟨i1, i2⟩ := ih hn.2 (fun j hj => h8 j (.tail _ hj)) (drawPixel cx b r acc k)
    have hk := h8 k (.head _)
    have hne : ∀ j ∈ ks, spriteColumn cx j ≠ spriteColumn cx k := fun j hj e => by
      have := spriteColumn_inj (h8 j (.tail _ hj)) hk e
      subst this; exact hn.1 hj
    rw [List.foldl_cons]
    by_cases hb : spriteBit b k = true
    · have e1 : drawPixel cx b r acc k = (flipPixel acc.1 r (spriteColumn cx k), acc.2 || pixelAt acc.1 r (spriteColumn cx k)) := by
        unfold drawPixel; rw [if_pos hb]
      rw [e1] at i1 i2 ⊢
      refine ⟨fun q d => ?_, ?_⟩
      · rw [i1, pixelAt_flipPixel]
        by_cases hq : q = r
        · by_cases hd : d = spriteColumn cx k
          · have : ¬ ∃ j ∈ ks, spriteBit b j = true ∧ d = spriteColumn cx j := by
              rintro ⟨j, hj, _, e⟩; exact hne j hj (e.symm.trans hd)
            subst hd
            rw [decide_eq_false (by rintro ⟨_, h⟩; exact this h), decide_eq_true ⟨hq, k, by simp, hb, rfl⟩]
            simp [hq]
          · simp [hq, hd, hb]
        · simp [hq]
      · rw [i2]
        simp only [List.mem_cons, exists_eq_or_imp, hb, true_and]
        have : ∀ j ∈ ks, pixelAt (flipPixel acc.1 r (spriteColumn cx k)) r (spriteColumn cx j) = pixelAt acc.1 r (spriteColumn cx j) := by
          intro j hj; rw [pixelAt_flipPixel, if_neg (by simp [hne j hj])]
        have e2 : (∃ j ∈ ks, spriteBit b j = true ∧ pixelAt (flipPixel acc.1 r (spriteColumn cx k)) r (spriteColumn cx j) = true) ↔ (∃ j ∈ ks, spriteBit b j = true ∧ pixelAt acc.1 r (spriteColumn cx j) = true) := by
          constructor <;> rintro ⟨j, hj, h1, h2⟩ <;> exact ⟨j, hj, h1, by simpa [this j hj] using h2⟩
        simp only [decide_eq_decide.mpr e2, Bool.or_assoc]
        congr 1
        cases pixelAt acc.1 r (spriteColumn cx k) <;> simp
    · have e1 : drawPixel cx b r acc k = acc := by unfold drawPixel; rw [if_neg hb]
      rw [e1] at i1 i2 ⊢
      refine ⟨fun q d => ?_, ?_⟩
      · rw [i1]; simp [hb]
      · rw [i2]; simp [hb]

/-- One sprite byte drawn: the pixels its 1 bits cover are inverted, and the collision bit is raised when one of them
was on (44 R263, R266). -/
theorem drawByte_spec (cx : Nat) (b : Byte) (r : Fin 32) (acc : Framebuffer × Bool) :
    (∀ q d, pixelAt (drawByte cx b r acc).1 q d =
      (pixelAt acc.1 q d ^^ decide (q = r ∧ ∃ k ∈ List.range 8, spriteBit b k = true ∧ d = spriteColumn cx k))) ∧
    (drawByte cx b r acc).2 =
      (acc.2 || decide (∃ k ∈ List.range 8, spriteBit b k = true ∧ pixelAt acc.1 r (spriteColumn cx k) = true)) := by
  have := foldl_drawPixel cx b r (List.range 8) List.nodup_range (fun k h => List.mem_range.mp h) acc
  exact this

/-- The row mask of R267 has the bit of column d exactly where a 1 bit of the byte reaches column d. -/
theorem spriteMask_getLsbD (cx : Nat) (b : Byte) (d : Fin 64) :
    (spriteMask cx b).getLsbD (63 - d.val) =
      decide (∃ k ∈ List.range 8, spriteBit b k = true ∧ d = spriteColumn cx k) := by
  unfold spriteMask
  rw [BitVec.getLsbD_rotateRight, Bool.eq_iff_iff, decide_eq_true_iff]
  have hd := d.isLt
  have hv : ∀ k, (d = spriteColumn cx k) ↔ d.val = (cx + k) % 64 := fun k => by
    rw [Fin.ext_iff]; simp [spriteColumn]
  have hm := Nat.mod_lt cx (show 0 < 64 by omega)
  simp only [hv, spriteBit, Nat.mod_mod, List.mem_range, cond_eq_ite, decide_eq_true_iff]
  constructor
  · intro h
    split at h
    · rw [BitVec.getLsbD_shiftLeft, BitVec.getLsbD_setWidth] at h
      simp only [Bool.and_eq_true, Bool.not_eq_true', decide_eq_true_iff, decide_eq_false_iff_not] at h
      refine ⟨63 - (cx % 64 + (63 - d.val)), by omega, ?_, by omega⟩
      rw [← h.2.2]; congr 1; omega
    · rw [BitVec.getLsbD_shiftLeft, BitVec.getLsbD_setWidth] at h
      simp only [Bool.and_eq_true, Bool.not_eq_true', decide_eq_true_iff, decide_eq_false_iff_not] at h
      refine ⟨63 - (63 - d.val - (64 - cx % 64)), by omega, ?_, by omega⟩
      rw [← h.2.2.2]; congr 1; omega
  · rintro ⟨k, hk, h1, h2⟩
    split
    · rw [BitVec.getLsbD_shiftLeft, BitVec.getLsbD_setWidth]
      simp only [Bool.and_eq_true, Bool.not_eq_true', decide_eq_true_iff, decide_eq_false_iff_not]
      refine ⟨⟨by omega, by omega⟩, by omega, ?_⟩
      rw [← h1]; congr 1; omega
    · rw [BitVec.getLsbD_shiftLeft, BitVec.getLsbD_setWidth]
      simp only [Bool.and_eq_true, Bool.not_eq_true', decide_eq_true_iff, decide_eq_false_iff_not]
      refine ⟨by omega, ⟨by omega, by omega⟩, by omega, ?_⟩
      rw [← h1]; congr 1; omega

end Sys2Proof.Machine
end

