-- ==== Sys2Proof/Laws/Step.lean ====
section
/-! SUPPORT. What one STEP can do (spec 40 R140 to R145). -/

namespace Sys2Proof.Machine

variable (s : State)

/-- A faulted machine does not move (40 R141). -/
theorem step_faulted {f : Fault} (h : s.status = .faulted f) : step s = .next s := by
  unfold step; rw [h]

/-- A running machine whose fetch gives an instruction executes it with PC advanced. -/
theorem step_running {i : Instr} (h : s.status = .running) (hf : fetchInstr s = .ok i) :
    step s = exec i s.advancePc := by
  unfold step; rw [h]; simp only [hf]

/-- A running machine whose fetch raises a fault takes it. -/
theorem step_fetchFault {f : Fault} (h : s.status = .running) (hf : fetchInstr s = .error f) :
    step s = .next { s with status := .faulted f } := by
  unfold step; rw [h]; simp only [hf]; rfl

/-- The three things a STEP can do: nothing on a faulted machine, a fetch or decode fault, or one instruction. -/
theorem step_cases :
    (∃ f, s.status = .faulted f ∧ step s = .next s) ∨
    (∃ f, s.status = .running ∧ fetchInstr s = .error f ∧ step s = .next { s with status := .faulted f }) ∨
    (∃ i, s.status = .running ∧ fetchInstr s = .ok i ∧ step s = exec i s.advancePc) := by
  cases hs : s.status with
  | faulted f => exact .inl ⟨f, rfl, step_faulted s hs⟩
  | running =>
    cases hf : fetchInstr s with
    | error f => exact .inr (.inl ⟨f, rfl, rfl, step_fetchFault s hs hf⟩)
    | ok i => exact .inr (.inr ⟨i, rfl, rfl, step_running s hs hf⟩)

/-- `withFetchWord` puts its word where the next STEP fetches. -/
theorem fetch_withFetchWord (nbits w : Nat) (hpc : s.pc.toNat + 1 < s.cfg.memSize)
    (hm : Memory.wf s.cfg s.mem) : fetch (s.withFetchWord nbits w) = .ok (tableWord nbits w) := by
  have hcfg : (s.withFetchWord nbits w).cfg = s.cfg := by unfold State.withFetchWord; split <;> rfl
  have hpc' : (s.withFetchWord nbits w).pc = s.pc := by unfold State.withFetchWord; split <;> rfl
  have hr : ∀ k, (s.withFetchWord nbits w).readByte k =
      (s.writeBytes s.pc.toNat [highByte (tableWord nbits w), lowByte (tableWord nbits w)]).readByte k := by
    intro k; unfold State.withFetchWord; rw [if_pos hpc]; rfl
  rw [fetch, hcfg, hpc', if_pos hpc, hr, hr, writeBytes_readByte _ _ _ _ hm, writeBytes_readByte _ _ _ _ hm,
    dif_pos (by simp), dif_pos (by simp)]
  simp

end Sys2Proof.Machine
end

