-- ==== Sys2Proof/Laws/HostOps.lean ====
section
/-! SUPPORT. What the host's operations do (spec 60 R340, 70 R362). -/

namespace Sys2Proof.Machine

variable (s : State)

/-- LOAD of a ROM that fits. -/
theorem load_ok {rom : List Byte} (h : rom.length ≤ romLimit s.cfg) :
    load rom s = .ok { s with
      v := Vector.replicate 16 0, i := 0, pc := 0x200, dt := 0, st := 0, stack := [],
      mem := Memory.writeAll s.cfg [] 0x200 rom, status := .running } := by
  unfold load; rw [if_neg (Nat.not_lt.mpr h)]

/-- LOAD of a ROM that does not fit. -/
theorem load_tooLarge {rom : List Byte} (h : romLimit s.cfg < rom.length) :
    load rom s = .error (.romTooLarge rom.length (romLimit s.cfg)) := by
  unfold load; rw [if_pos h]

/-- A byte of memory after LOAD: the ROM from 0x200, else the reset content. -/
theorem load_readByte {rom : List Byte} {t : State} (h : load rom s = .ok t) (a : Nat) :
    t.readByte a = if h : 0x200 ≤ a ∧ a < 0x200 + rom.length then rom[a - 0x200] else background s.cfg a := by
  by_cases hr : rom.length ≤ romLimit s.cfg
  · rw [load_ok s hr] at h
    cases h
    exact Memory.read_writeAll _ _ _ List.Pairwise.nil
  · rw [load_tooLarge s (Nat.lt_of_not_le hr)] at h
    cases h

/-- A timer counted down is one less, not below 0. -/
theorem countDown_toNat (b : Byte) : (countDown b).toNat = b.toNat - 1 := by
  revert b; decide

/-- STEP as a host operation goes on with `step`'s state. -/
theorem perform_step {t : State} (h : step s = .next t) : perform .step s = (t, stepReply t) := by
  simp only [perform, h]

end Sys2Proof.Machine
end

