-- ==== Sys2Proof/Laws/PerInstr.lean ====
section
/-! SUPPORT. Per instruction: its encoding satisfies its row of the opcode table, and the row reads its operands
back (spec 30 R101, R106). -/

namespace Sys2Proof.Laws.EncodeHasRow

/-- The word of i satisfies a row of the table, and for a well-formed i the row reads every operand back. -/
def Statement (i : Instr) : Prop :=
  ∃ r ∈ opcodeTable, r.accepts (encode i) = true ∧ (i.wellFormed = true → r.build (encode i) = i)

/-- The row at index k is i's, given that the masked word is the pattern and that the row rebuilds i. -/
theorem of_row {i : Instr} (k : Nat) (hk : k < opcodeTable.length)
    (hm : encode i &&& opcodeTable[k].mask = opcodeTable[k].pattern)
    (hb : i.wellFormed = true → opcodeTable[k].build (encode i) = i) : Statement i :=
  ⟨opcodeTable[k], List.getElem_mem hk, by simp [OpcodeRow.accepts, hm], hb⟩

/-- A row of shape c NNN. -/
theorem of_nnn {i : Instr} (k : Nat) (hk : k < opcodeTable.length) {c : BitVec 4} {nnn : Word}
    (hi : encode i = formNNN c nnn) (hmask : opcodeTable[k].mask = 0xF000#16)
    (hp : opcodeTable[k].pattern = formNNN c 0)
    (hb : i.wellFormed = true → opcodeTable[k].build (formNNN c nnn) = i) : Statement i :=
  of_row k hk (by rw [hi, hmask, hp, formNNN_class]) (by rw [hi]; exact hb)

/-- A row of shape c X KK with an immediate. -/
theorem of_xkk {i : Instr} (k : Nat) (hk : k < opcodeTable.length) {c : BitVec 4} {x : Reg} {kk : Byte}
    (hi : encode i = formXKK c x kk) (hmask : opcodeTable[k].mask = 0xF000#16)
    (hp : opcodeTable[k].pattern = formNNN c 0) (hb : opcodeTable[k].build (formXKK c x kk) = i) : Statement i :=
  of_row k hk (by rw [hi, hmask, hp, formXKK_class]) (by rw [hi]; exact fun _ => hb)

/-- A row of shape c X with a fixed low byte. -/
theorem of_x {i : Instr} (k : Nat) (hk : k < opcodeTable.length) {c : BitVec 4} {x : Reg} {kk : Byte}
    (hi : encode i = formXKK c x kk) (hmask : opcodeTable[k].mask = 0xF0FF#16)
    (hp : opcodeTable[k].pattern = formXKK c 0 kk) (hb : opcodeTable[k].build (formXKK c x kk) = i) : Statement i :=
  of_row k hk (by rw [hi, hmask, hp, formXKK_low]) (by rw [hi]; exact fun _ => hb)

/-- A row of shape c X Y with a fixed low nibble. -/
theorem of_xy {i : Instr} (k : Nat) (hk : k < opcodeTable.length) {c : BitVec 4} {x y : Reg} {n : BitVec 4}
    (hi : encode i = formXYN c x y n) (hmask : opcodeTable[k].mask = 0xF00F#16)
    (hp : opcodeTable[k].pattern = formXYN c 0 0 n) (hb : opcodeTable[k].build (formXYN c x y n) = i) :
    Statement i :=
  of_row k hk (by rw [hi, hmask, hp, formXYN_ends]) (by rw [hi]; exact fun _ => hb)

theorem cls : Statement (.cls) := of_row 0 (by decide) (by decide) (fun _ => rfl)
theorem ret : Statement (.ret) := of_row 1 (by decide) (by decide) (fun _ => rfl)
theorem jp (nnn : Word) : Statement (.jp nnn) :=
  of_nnn 2 (by decide) rfl rfl (by decide) fun h => congrArg Instr.jp (fieldNNN_formNNN _ h)
theorem call (nnn : Word) : Statement (.call nnn) :=
  of_nnn 3 (by decide) rfl rfl (by decide) fun h => congrArg Instr.call (fieldNNN_formNNN _ h)
theorem seImm (x : Reg) (kk : Byte) : Statement (.seImm x kk) :=
  of_xkk 4 (by decide) rfl rfl (by decide) (congrArg₂ Instr.seImm (fieldX_formXKK _ x kk) (fieldKK_formXKK _ x kk))
theorem sneImm (x : Reg) (kk : Byte) : Statement (.sneImm x kk) :=
  of_xkk 5 (by decide) rfl rfl (by decide) (congrArg₂ Instr.sneImm (fieldX_formXKK _ x kk) (fieldKK_formXKK _ x kk))
theorem seReg (x : Reg) (y : Reg) : Statement (.seReg x y) :=
  of_xy 6 (by decide) rfl rfl (by decide) (congrArg₂ Instr.seReg (fieldX_formXYN _ x y _) (fieldY_formXYN _ x y _))
theorem ldImm (x : Reg) (kk : Byte) : Statement (.ldImm x kk) :=
  of_xkk 7 (by decide) rfl rfl (by decide) (congrArg₂ Instr.ldImm (fieldX_formXKK _ x kk) (fieldKK_formXKK _ x kk))
theorem addImm (x : Reg) (kk : Byte) : Statement (.addImm x kk) :=
  of_xkk 8 (by decide) rfl rfl (by decide) (congrArg₂ Instr.addImm (fieldX_formXKK _ x kk) (fieldKK_formXKK _ x kk))
theorem ldReg (x : Reg) (y : Reg) : Statement (.ldReg x y) :=
  of_xy 9 (by decide) rfl rfl (by decide) (congrArg₂ Instr.ldReg (fieldX_formXYN _ x y _) (fieldY_formXYN _ x y _))
theorem orReg (x : Reg) (y : Reg) : Statement (.orReg x y) :=
  of_xy 10 (by decide) rfl rfl (by decide) (congrArg₂ Instr.orReg (fieldX_formXYN _ x y _) (fieldY_formXYN _ x y _))
theorem andReg (x : Reg) (y : Reg) : Statement (.andReg x y) :=
  of_xy 11 (by decide) rfl rfl (by decide) (congrArg₂ Instr.andReg (fieldX_formXYN _ x y _) (fieldY_formXYN _ x y _))
theorem xorReg (x : Reg) (y : Reg) : Statement (.xorReg x y) :=
  of_xy 12 (by decide) rfl rfl (by decide) (congrArg₂ Instr.xorReg (fieldX_formXYN _ x y _) (fieldY_formXYN _ x y _))
theorem addReg (x : Reg) (y : Reg) : Statement (.addReg x y) :=
  of_xy 13 (by decide) rfl rfl (by decide) (congrArg₂ Instr.addReg (fieldX_formXYN _ x y _) (fieldY_formXYN _ x y _))
theorem subReg (x : Reg) (y : Reg) : Statement (.subReg x y) :=
  of_xy 14 (by decide) rfl rfl (by decide) (congrArg₂ Instr.subReg (fieldX_formXYN _ x y _) (fieldY_formXYN _ x y _))
theorem shr (x : Reg) (y : Reg) : Statement (.shr x y) :=
  of_xy 15 (by decide) rfl rfl (by decide) (congrArg₂ Instr.shr (fieldX_formXYN _ x y _) (fieldY_formXYN _ x y _))
theorem subnReg (x : Reg) (y : Reg) : Statement (.subnReg x y) :=
  of_xy 16 (by decide) rfl rfl (by decide) (congrArg₂ Instr.subnReg (fieldX_formXYN _ x y _) (fieldY_formXYN _ x y _))
theorem shl (x : Reg) (y : Reg) : Statement (.shl x y) :=
  of_xy 17 (by decide) rfl rfl (by decide) (congrArg₂ Instr.shl (fieldX_formXYN _ x y _) (fieldY_formXYN _ x y _))
theorem sneReg (x : Reg) (y : Reg) : Statement (.sneReg x y) :=
  of_xy 18 (by decide) rfl rfl (by decide) (congrArg₂ Instr.sneReg (fieldX_formXYN _ x y _) (fieldY_formXYN _ x y _))
theorem ldI (nnn : Word) : Statement (.ldI nnn) :=
  of_nnn 19 (by decide) rfl rfl (by decide) fun h => congrArg Instr.ldI (fieldNNN_formNNN _ h)
theorem jpV0 (nnn : Word) : Statement (.jpV0 nnn) :=
  of_nnn 20 (by decide) rfl rfl (by decide) fun h => congrArg Instr.jpV0 (fieldNNN_formNNN _ h)
theorem rnd (x : Reg) (kk : Byte) : Statement (.rnd x kk) :=
  of_xkk 21 (by decide) rfl rfl (by decide) (congrArg₂ Instr.rnd (fieldX_formXKK _ x kk) (fieldKK_formXKK _ x kk))
theorem drw (x : Reg) (y : Reg) (n : Fin 16) : Statement (.drw x y n) :=
  of_row 22 (by decide) (formXYN_class 0xD x y (nibble n)) fun _ => by
    show Instr.drw (fieldX (formXYN 0xD x y (nibble n))) (fieldY (formXYN 0xD x y (nibble n)))
      (fieldN (formXYN 0xD x y (nibble n))) = _
    rw [fieldX_formXYN, fieldY_formXYN, fieldN_formXYN]
theorem skp (x : Reg) : Statement (.skp x) :=
  of_x 23 (by decide) rfl rfl (by decide) (congrArg Instr.skp (fieldX_formXKK _ x _))
theorem sknp (x : Reg) : Statement (.sknp x) :=
  of_x 24 (by decide) rfl rfl (by decide) (congrArg Instr.sknp (fieldX_formXKK _ x _))
theorem ldVxDt (x : Reg) : Statement (.ldVxDt x) :=
  of_x 25 (by decide) rfl rfl (by decide) (congrArg Instr.ldVxDt (fieldX_formXKK _ x _))
theorem ldVxKey (x : Reg) : Statement (.ldVxKey x) :=
  of_x 26 (by decide) rfl rfl (by decide) (congrArg Instr.ldVxKey (fieldX_formXKK _ x _))
theorem ldDtVx (x : Reg) : Statement (.ldDtVx x) :=
  of_x 27 (by decide) rfl rfl (by decide) (congrArg Instr.ldDtVx (fieldX_formXKK _ x _))
theorem ldStVx (x : Reg) : Statement (.ldStVx x) :=
  of_x 28 (by decide) rfl rfl (by decide) (congrArg Instr.ldStVx (fieldX_formXKK _ x _))
theorem addIVx (x : Reg) : Statement (.addIVx x) :=
  of_x 29 (by decide) rfl rfl (by decide) (congrArg Instr.addIVx (fieldX_formXKK _ x _))
theorem ldFont (x : Reg) : Statement (.ldFont x) :=
  of_x 30 (by decide) rfl rfl (by decide) (congrArg Instr.ldFont (fieldX_formXKK _ x _))
theorem ldBcd (x : Reg) : Statement (.ldBcd x) :=
  of_x 31 (by decide) rfl rfl (by decide) (congrArg Instr.ldBcd (fieldX_formXKK _ x _))
theorem storeRegs (x : Reg) : Statement (.storeRegs x) :=
  of_x 32 (by decide) rfl rfl (by decide) (congrArg Instr.storeRegs (fieldX_formXKK _ x _))
theorem loadRegs (x : Reg) : Statement (.loadRegs x) :=
  of_x 33 (by decide) rfl rfl (by decide) (congrArg Instr.loadRegs (fieldX_formXKK _ x _))

/-- Every instruction has its row. -/
theorem all (i : Instr) : Statement i := by
  cases i with
  | cls => exact cls
  | ret => exact ret
  | jp nnn => exact jp nnn
  | call nnn => exact call nnn
  | seImm x kk => exact seImm x kk
  | sneImm x kk => exact sneImm x kk
  | seReg x y => exact seReg x y
  | ldImm x kk => exact ldImm x kk
  | addImm x kk => exact addImm x kk
  | ldReg x y => exact ldReg x y
  | orReg x y => exact orReg x y
  | andReg x y => exact andReg x y
  | xorReg x y => exact xorReg x y
  | addReg x y => exact addReg x y
  | subReg x y => exact subReg x y
  | shr x y => exact shr x y
  | subnReg x y => exact subnReg x y
  | shl x y => exact shl x y
  | sneReg x y => exact sneReg x y
  | ldI nnn => exact ldI nnn
  | jpV0 nnn => exact jpV0 nnn
  | rnd x kk => exact rnd x kk
  | drw x y n => exact drw x y n
  | skp x => exact skp x
  | sknp x => exact sknp x
  | ldVxDt x => exact ldVxDt x
  | ldVxKey x => exact ldVxKey x
  | ldDtVx x => exact ldDtVx x
  | ldStVx x => exact ldStVx x
  | addIVx x => exact addIVx x
  | ldFont x => exact ldFont x
  | ldBcd x => exact ldBcd x
  | storeRegs x => exact storeRegs x
  | loadRegs x => exact loadRegs x

end Sys2Proof.Laws.EncodeHasRow
end

