-- ==== Sys2Proof/Laws/Words.lean ====
section
/-! SUPPORT. The instruction words as numbers are the encoder's words. -/

namespace Sys2Proof.Machine

theorem wordNNN_eq {c : Nat} {nnn : Word} (h : nnn.toNat ≤ 0xFFF) :
    wordNNN c nnn = formNNN (BitVec.ofNat 4 c) nnn := by
  apply BitVec.eq_of_toNat_eq
  rw [wordNNN, formNNN_toNat, BitVec.toNat_ofNat, BitVec.toNat_ofNat]
  omega

theorem wordXKK_eq {c : Nat} {x : Reg} {kk : Nat} (hk : kk < 256) :
    wordXKK c x kk = formXKK (BitVec.ofNat 4 c) x (BitVec.ofNat 8 kk) := by
  apply BitVec.eq_of_toNat_eq
  rw [wordXKK, formXKK_toNat, BitVec.toNat_ofNat, BitVec.toNat_ofNat, BitVec.toNat_ofNat]
  omega

theorem wordXYN_eq {c : Nat} {x y : Reg} {n : Nat} (hn : n < 16) :
    wordXYN c x y n = formXYN (BitVec.ofNat 4 c) x y (BitVec.ofNat 4 n) := by
  apply BitVec.eq_of_toNat_eq
  rw [wordXYN, formXYN_toNat, BitVec.toNat_ofNat, BitVec.toNat_ofNat, BitVec.toNat_ofNat]
  omega

end Sys2Proof.Machine
end

