-- ==== Sys2Proof/Tests/Slice0.lean ====
section
/-! SUPPORT. The model's own tests: the well-formedness checks, one written-out word per instruction (30 R106), one-step
vectors from 95 Part 1 and Part 2, and a witness for the hypotheses of each statement. -/

namespace Sys2Proof.Tests

open Sys2Proof Sys2Proof.Machine

/-! ### Well-formedness -/

theorem test_jp_address_refused : (Instr.jp 0x1000).wellFormed = false := by decide
theorem test_call_address_refused : (Instr.call 0x1000).wellFormed = false := by decide
theorem test_ldI_address_refused : (Instr.ldI 0x1000).wellFormed = false := by decide
theorem test_jpV0_address_refused : (Instr.jpV0 0xFFFF).wellFormed = false := by decide

/-! ### Decoding: words written out from R106 -/

theorem test_decode_flow :
    decode 0x00EE = .ok .ret ∧ decode 0x1234 = .ok (.jp 0x234) ∧ decode 0x2FFE = .ok (.call 0xFFE) ∧
    decode 0x3310 = .ok (.seImm 3 0x10) ∧ decode 0x4F01 = .ok (.sneImm 15 0x01) ∧
    decode 0x5120 = .ok (.seReg 1 2) ∧ decode 0x9AB0 = .ok (.sneReg 10 11) ∧ decode 0xB300 = .ok (.jpV0 0x300) := by
  decide

theorem test_decode_alu :
    decode 0x6A2B = .ok (.ldImm 10 0x2B) ∧ decode 0x71FF = .ok (.addImm 1 0xFF) ∧ decode 0x8120 = .ok (.ldReg 1 2) ∧
    decode 0x8121 = .ok (.orReg 1 2) ∧ decode 0x8122 = .ok (.andReg 1 2) ∧ decode 0x8123 = .ok (.xorReg 1 2) ∧
    decode 0x8124 = .ok (.addReg 1 2) ∧ decode 0x8125 = .ok (.subReg 1 2) ∧ decode 0x83F6 = .ok (.shr 3 15) ∧
    decode 0x8127 = .ok (.subnReg 1 2) ∧ decode 0x830E = .ok (.shl 3 0) ∧ decode 0xC30F = .ok (.rnd 3 0x0F) := by
  decide

theorem test_decode_memory_display :
    decode 0xA300 = .ok (.ldI 0x300) ∧ decode 0xF11E = .ok (.addIVx 1) ∧ decode 0xFA29 = .ok (.ldFont 10) ∧
    decode 0xF433 = .ok (.ldBcd 4) ∧ decode 0xF255 = .ok (.storeRegs 2) ∧ decode 0xF065 = .ok (.loadRegs 0) ∧
    decode 0x00E0 = .ok .cls ∧ decode 0xD125 = .ok (.drw 1 2 5) := by
  decide

theorem test_decode_keys_timers :
    decode 0xE29E = .ok (.skp 2) ∧ decode 0xE2A1 = .ok (.sknp 2) ∧ decode 0xF307 = .ok (.ldVxDt 3) ∧
    decode 0xF50A = .ok (.ldVxKey 5) ∧ decode 0xF015 = .ok (.ldDtVx 0) ∧ decode 0xF118 = .ok (.ldStVx 1) := by
  decide

/-- The Unrecognized words of 95 2.1. -/
theorem test_decode_rejects :
    decode 0x0000 = .error (.unrecognized 0x0000) ∧ decode 0x0123 = .error (.unrecognized 0x0123) ∧
    decode 0x00E1 = .error (.unrecognized 0x00E1) ∧ decode 0x5121 = .error (.unrecognized 0x5121) ∧
    decode 0x8008 = .error (.unrecognized 0x8008) ∧ decode 0x800F = .error (.unrecognized 0x800F) ∧
    decode 0x9121 = .error (.unrecognized 0x9121) ∧ decode 0xE09F = .error (.unrecognized 0xE09F) ∧
    decode 0xF0FF = .error (.unrecognized 0xF0FF) ∧ decode 0x00FD = .error (.unrecognized 0x00FD) := by
  decide

theorem test_decode_bytes_big_endian :
    decodeBytes [0x6A, 0x2B, 0x99] = .ok (.ldImm 10 0x2B, [0x99]) ∧ decodeBytes [0x6A] = .error .truncated := by
  decide

theorem test_table_word : decodeTableWord 16 0x6A2B = some (.ldImm 10 0x2B) ∧ decodeTableWord 16 0x5121 = none := by
  decide

/-! ### Helpers: the machine of 95's conventions -/

/-- The instruction word w at 0x200 on a machine with the given registers, everything else as at reset. -/
def machine (w : Nat) (regs : List (Reg × Byte)) : State :=
  regs.foldl (fun s r => s.setV r.1 r.2) (State.reset.withFetchWord 16 w)

/-- The same with I set. -/
def machineI (w : Nat) (i : Word) (regs : List (Reg × Byte)) : State := (machine w regs).setI i

/-- The keypad with the listed keys pressed. -/
def keys (l : List Reg) : Keypad := Vector.ofFn fun k => l.contains k

/-- The state after one STEP. -/
def stepped (s : State) : State := (perform .step s).1

/-- The listed registers of a state. -/
def regsOf (s : State) (l : List Reg) : List Byte := l.map s.getV

/-! ### Control flow: 95 2.3 -/

theorem test_ret : (stepped ((machine 0x00EE []).setStack [0x0206])).pc = 0x206 ∧
    (stepped ((machine 0x00EE []).setStack [0x0206])).stack = [] := by decide
theorem test_ret_underflow : (stepped (machine 0x00EE [])).status = .faulted (.stackUnderflow 0x200 0x00EE) ∧
    (stepped (machine 0x00EE [])).pc = 0x200 := by decide
theorem test_jp : (stepped (machine 0x1234 [])).pc = 0x234 := by decide
theorem test_call : (stepped (machine 0x2210 [])).pc = 0x210 ∧ (stepped (machine 0x2210 [])).stack = [0x202] := by
  decide
theorem test_call_overflow :
    (stepped ((machine 0x2300 []).setStack (List.replicate 16 0x206))).status =
      .faulted (.stackOverflow 0x200 0x2300) := by decide
theorem test_se_imm : (stepped (machine 0x3310 [(3, 0x10)])).pc = 0x204 ∧
    (stepped (machine 0x3310 [(3, 0x11)])).pc = 0x202 := by decide
theorem test_sne_imm : (stepped (machine 0x4310 [(3, 0x11)])).pc = 0x204 ∧
    (stepped (machine 0x4310 [(3, 0x10)])).pc = 0x202 := by decide
theorem test_se_reg : (stepped (machine 0x5120 [(1, 7), (2, 7)])).pc = 0x204 ∧
    (stepped (machine 0x5110 [(1, 7)])).pc = 0x204 := by decide
theorem test_sne_reg : (stepped (machine 0x9120 [(1, 7), (2, 8)])).pc = 0x204 ∧
    (stepped (machine 0x9110 [(1, 7)])).pc = 0x202 := by decide
theorem test_jp_v0 : (stepped (machine 0xB300 [(0, 0x01)])).pc = 0x301 := by decide
theorem test_jp_v0_unmasked : (stepped (machine 0xBFFF [(0, 0xFF)])).pc = 0x10FE ∧
    (stepped (stepped (machine 0xBFFF [(0, 0xFF)]))).status = .faulted (.fetchOutOfRange 0x10FE) := by decide

/-! ### ALU: 95 2.4 -/

theorem test_ld_imm : regsOf (stepped (machine 0x6A2B [])) [10, 15] = [0x2B, 0] := by decide
theorem test_add_imm_wraps : regsOf (stepped (machine 0x7101 [(1, 0xFF), (15, 1)])) [1, 15] = [0x00, 1] := by decide
theorem test_ld_reg : regsOf (stepped (machine 0x8120 [(2, 0x99)])) [1] = [0x99] := by decide
theorem test_or : regsOf (stepped (machine 0x8121 [(1, 0x0F), (2, 0xF0), (15, 1)])) [1, 15] = [0xFF, 1] := by decide
theorem test_and : regsOf (stepped (machine 0x8122 [(1, 0x3C), (2, 0x0F)])) [1, 2] = [0x0C, 0x0F] := by decide
theorem test_xor : regsOf (stepped (machine 0x8123 [(1, 0x3C), (2, 0x0F)])) [1, 2] = [0x33, 0x0F] := by decide
theorem test_add_carry : regsOf (stepped (machine 0x8124 [(1, 0xFF), (2, 0x01)])) [1, 15] = [0x00, 1] := by decide
theorem test_add_y_is_vf : regsOf (stepped (machine 0x82F4 [(2, 0xFF), (15, 0x01)])) [2, 15] = [0x00, 1] := by decide
theorem test_sub_equal : regsOf (stepped (machine 0x8125 [(1, 0x05), (2, 0x05)])) [1, 15] = [0x00, 1] := by decide
theorem test_sub_borrow : regsOf (stepped (machine 0x8125 [(1, 0x03), (2, 0x05)])) [1, 15] = [0xFE, 0] := by decide
theorem test_shr : regsOf (stepped (machine 0x83F6 [(3, 0x05), (15, 0x77)])) [3, 15] = [0x02, 1] := by decide
theorem test_shr_vf : regsOf (stepped (machine 0x8F06 [(15, 0x05)])) [15] = [0x02] := by decide
theorem test_subn : regsOf (stepped (machine 0x8127 [(1, 0x03), (2, 0x05)])) [1, 15] = [0x02, 1] := by decide
theorem test_subn_borrow : regsOf (stepped (machine 0x8127 [(1, 0x05), (2, 0x03)])) [1, 15] = [0xFE, 0] := by decide
theorem test_shl : regsOf (stepped (machine 0x830E [(3, 0x81)])) [3, 15] = [0x02, 1] := by decide
theorem test_shl_vf : regsOf (stepped (machine 0x8F0E [(15, 0x81)])) [15] = [0x02] := by decide
theorem test_rnd_mask_zero : ∃ t, exec (.rnd 3 0x00) (machine 0xC300 [(3, 7)]) = .next t ∧ t.getV 3 = 0 :=
  ⟨_, rfl, by simp⟩

/-! ### Index register and memory: 95 2.5 -/

theorem test_ld_i : (stepped (machine 0xA300 [])).i = 0x300 := by decide
theorem test_add_i_wraps : (stepped (machineI 0xF11E 0xFFFF [(1, 2)])).i = 0x0001 ∧
    regsOf (stepped (machineI 0xF11E 0xFFFF [(1, 2)])) [15] = [0] := by decide
theorem test_font_address : (stepped (machine 0xFA29 [(10, 0x0A)])).i = 0x032 ∧
    (stepped (machine 0xF329 [(3, 0xFF)])).i = 0x4FB := by decide
theorem test_bcd : (stepped (machineI 0xF433 0x300 [(4, 234)])).readBytes 0x300 3 = [2, 3, 4] := by decide
theorem test_bcd_reserved :
    (stepped (machineI 0xF433 0x1FF [(4, 7)])).status = .faulted (.reservedWrite 0x200 0xF433 0x1FF) := by decide
theorem test_store_regs : (stepped (machineI 0xF255 0x400 [(0, 1), (1, 2), (2, 3)])).readBytes 0x400 4 = [1, 2, 3, 0] ∧
    (stepped (machineI 0xF255 0x400 [(0, 1)])).i = 0x400 := by decide
theorem test_store_regs_past_end :
    (stepped (machineI 0xFF55 0xFF1 [])).status = .faulted (.memoryOutOfRange 0x200 0xFF55 0x1000) := by decide
theorem test_load_regs_font :
    regsOf (stepped (machineI 0xF465 0x000 [])) [0, 1, 2, 3, 4, 5] = [0xF0, 0x90, 0x90, 0x90, 0xF0, 0] := by decide
theorem test_load_regs_loads_vf :
    regsOf (stepped ((machineI 0xFF65 0x300 []).writeBytes 0x30F [0x5A])) [14, 15] = [0, 0x5A] := by decide

/-! ### Display: 95 S5 to S7 and 2.6 -/

/-- The columns of row r that are on. -/
def columnsOn (s : State) (r : Fin 32) : List Nat :=
  (List.finRange 64).filterMap fun c => if pixelAt s.fb r c then some c.val else none

theorem test_cls : (stepped ((machine 0x00E0 [(15, 1)]).setFb (Vector.replicate 32 0xFF))).fb =
    Vector.replicate 32 0 ∧ regsOf (stepped (machine 0x00E0 [(15, 1)])) [15] = [1] := by decide
theorem test_draw_columns :
    columnsOn (stepped ((machineI 0xD011 0x300 [(0, 63)]).writeBytes 0x300 [0xC1])) 0 = [0, 6, 63] ∧
    columnsOn (stepped (machineI 0xD125 0x000 [(1, 0x41), (2, 0x21)])) 1 = [1, 2, 3, 4] := by decide
theorem test_draw_rows :
    columnsOn (stepped ((machineI 0xD012 0x300 [(1, 31)]).writeBytes 0x300 [0x80, 0x80])) 0 = [0] ∧
    regsOf (stepped (machine 0xD120 [(15, 1)])) [15] = [0] := by decide
theorem test_pixel_refused : perform (.pixel 64 0) State.reset =
    (State.reset, .refused (.pixelOutOfRange 64 0)) := by decide

/-! ### Keypad and timers: 95 2.7 -/

theorem test_skp : (stepped ((machine 0xE29E [(2, 5)]).setKey (keys [3, 5]))).pc = 0x204 ∧
    (stepped (machine 0xE29E [(2, 5)])).pc = 0x202 := by decide
theorem test_skp_index : (stepped (machine 0xE29E [(2, 0x10)])).status =
    .faulted (.keyIndexOutOfRange 0x200 0xE29E 0x10) := by decide
theorem test_sknp : (stepped ((machine 0xE2A1 [(2, 5)]).setKey (keys [5]))).pc = 0x202 ∧
    (stepped (machine 0xE2A1 [(2, 5)])).pc = 0x204 := by decide
theorem test_ld_vx_dt : regsOf (stepped ((machine 0xF307 []).setDt 0x3C)) [3] = [0x3C] := by decide
theorem test_key_wait : (stepped (machine 0xF50A [])).pc = 0x200 := by decide
theorem test_key_wait_lowest : (stepped ((machine 0xF50A []).setKey (keys [3, 9]))).pc = 0x202 ∧
    regsOf (stepped ((machine 0xF50A []).setKey (keys [3, 9]))) [5] = [3] := by decide
theorem test_ld_dt : (stepped (machine 0xF015 [(0, 5)])).dt = 5 := by decide
theorem test_ld_st : (stepped (machine 0xF118 [(1, 2)])).st = 2 ∧ sound (stepped (machine 0xF118 [(1, 2)])) = true := by
  decide
theorem test_tick : (tick ((State.reset.setDt 1).setSt 200)).dt = 0 ∧ (tick ((State.reset.setDt 1).setSt 200)).st = 199 ∧
    (tick State.reset).dt = 0 := by decide

/-! ### LOAD, the STEP cycle and the host's words -/

/-- 95 S9. -/
theorem test_load_step : regsOf (performAll [.load [0x6A, 0x2B], .step] State.reset) [10] = [0x2B] ∧
    (performAll [.load [0x6A, 0x2B], .step] State.reset).pc = 0x202 := by decide

/-- 95 2.8: what LOAD clears and keeps. -/
theorem test_load_resets :
    (performAll [.setKeys (keys [2]), .load [0x12, 0x00]]
      ((machine 0x1200 [(3, 9)]).writeBytes 0x900 [7])).readByte 0x900 = 0 ∧
    (performAll [.setKeys (keys [2]), .load [0x12, 0x00]] (machine 0x1200 [(3, 9)])).key = keys [2] := by decide

/-- 95 2.2: a TICK runs while Faulted, and a LOAD restarts. -/
theorem test_faulted_tick_load : (performAll [.step, .tick] (State.reset.setDt 3)).dt = 2 ∧
    (performAll [.step, .load []] State.reset).status = .running := by decide

/-- The word of a row placed by `withFetchWord` is what the next step runs. -/
theorem test_with_fetch_word : fetchInstr (State.reset.withFetchWord 16 0xD015) = .ok (.drw 0 1 5) := by decide

/-- Memory keeps its canonical form: a write that restores the reset content leaves no entry. -/
theorem test_memory_canonical :
    ((State.reset.writeBytes 0x300 [5, 6]).writeBytes 0x300 [0]).mem = [(0x301, 6)] ∧
    (State.reset.writeBytes 0x301 [6]).mem = [(0x301, 6)] := by decide

/-! ### Witnesses: a state and operands that meet the hypotheses of each statement, at the edges of their ranges -/

theorem witness_DecodeOfEncodeIsIdentity : (Instr.jp 0xFFF).wellFormed = true ∧ (Instr.ldI 0).wellFormed = true ∧
    (Instr.drw 15 15 15).wellFormed = true := by decide
theorem witness_EncodeOfDecodeIsIdentity : decode 0xDFFF = .ok (.drw 15 15 15) := by decide
theorem witness_DecodeFollowsOpcodeTable :
    (∃ r ∈ opcodeTable, (0x8FFE : Word) &&& r.mask = r.pattern) ∧
    (∀ r ∈ opcodeTable, (0x0000 : Word) &&& r.mask ≠ r.pattern) ∧
    (State.reset.setPc 0xFFE).status = .running ∧
    (State.reset.setPc 0xFFE).pc.toNat + 1 < (State.reset.setPc 0xFFE).cfg.memSize ∧
    wordOfBytes ((State.reset.setPc 0xFFE).readByte 0xFFE) ((State.reset.setPc 0xFFE).readByte 0xFFF) = 0 :=
  ⟨⟨⟨"SHL_Vx", 0xF00F#16, 0x800E#16, fun w => .shl (fieldX w) (fieldY w)⟩, by simp [opcodeTable, opcodeRowsRegister],
    by decide⟩, by decide, by decide, by decide, by decide⟩

/-- A machine at the last address it can fetch from, with `6A2B` there. -/
def atEnd : State := (State.reset.setPc 0xFFE).withFetchWord 16 0x6A2B

theorem witness_StepRunsTheDecodedInstruction : atEnd.status = .running ∧
    atEnd.pc.toNat + 1 < atEnd.cfg.memSize ∧
    decodeBytes [atEnd.readByte atEnd.pc.toNat, atEnd.readByte (atEnd.pc.toNat + 1)] = .ok (.ldImm 10 0x2B, []) := by
  decide
theorem witness_FaultedStepRepeatsTheFault : (stepped State.reset).status = .faulted (.unrecognizedOpcode 0x200 0) := by
  decide
theorem witness_FetchPastMemoryFaults : (State.reset.setPc 0xFFF).status = .running ∧
    (State.reset.setPc 0xFFF).cfg.memSize ≤ (State.reset.setPc 0xFFF).pc.toNat + 1 := by decide
theorem witness_UnrecognizedWordFaults : (State.reset.setPc 0xFFE).status = .running ∧
    (State.reset.setPc 0xFFE).pc.toNat + 1 < (State.reset.setPc 0xFFE).cfg.memSize ∧
    wordOfBytes ((State.reset.setPc 0xFFE).readByte 0xFFE) ((State.reset.setPc 0xFFE).readByte 0xFFF) = 0 ∧
    decode 0x0000 = .error (.unrecognized 0x0000) := by decide

theorem fetchInstr_setKey (s : State) (k : Keypad) : fetchInstr (s.setKey k) = fetchInstr s := rfl

/-- A machine waiting at an FX0A. -/
theorem waiting_example (k : Keypad) : Waiting ((machine 0xF50A []).setKey k) 0x200 5 :=
  ⟨by rfl, by rfl, by rw [fetchInstr_setKey]; decide⟩

theorem witness_StepAlwaysCompletes : Waiting ((machine 0xF50A []).setKey (keys [])) 0x200 5 ∧
    ∀ k : Reg, ((machine 0xF50A []).setKey (keys [])).key[k.val] = false := ⟨waiting_example _, by decide⟩
theorem witness_KeyWaitStateMachine :
    (Waiting ((machine 0xF50A []).setKey (keys [])) 0x200 5 ∧
      ((machine 0xF50A []).setKey (keys [])).firstPressed = none) ∧
    (Waiting ((machine 0xF50A []).setKey (keys [15])) 0x200 5 ∧
      ((machine 0xF50A []).setKey (keys [15])).firstPressed = some 15) ∧
    (List.replicate 3584 (0 : Byte)).length ≤ (machine 0xF50A []).cfg.memSize - 0x200 :=
  ⟨⟨waiting_example _, by decide⟩, ⟨waiting_example _, by decide⟩, by rw [List.length_replicate]; decide⟩
theorem witness_FaultLeavesStateAsBefore : ∃ t, (machine 0x00EE []).status = .running ∧
    step (machine 0x00EE []) = .next t ∧ t.status = .faulted (.stackUnderflow 0x200 0x00EE) :=
  ⟨_, by rfl, by rfl, by decide⟩
theorem witness_StepNeverTicksTheTimers :
    (∃ t, step (machine 0xF015 [(0, 5)]) = .next t ∧ t.dt ≠ (machine 0xF015 [(0, 5)]).dt) ∧
    (∃ t, step (machine 0xF118 [(1, 2)]) = .next t ∧ t.st ≠ (machine 0xF118 [(1, 2)]).st) :=
  ⟨⟨_, by rfl, by decide⟩, ⟨_, by rfl, by decide⟩⟩
theorem witness_OnlyLoadEndsAFault : (stepped State.reset).status = .faulted (.unrecognizedOpcode 0x200 0) ∧
    (perform (.load []) (stepped State.reset)).1.status = .running := by decide

/-- The machine with LS_INCREMENT_I. -/
def incrementing (s : State) : State := { s with cfg := { s.cfg with lsIncrementI := true } }

theorem witness_EachFieldIsWritten_i :
    (∃ t, exec (.ldI 0x300) State.reset = .next t ∧ t.i ≠ State.reset.i) ∧
    (∃ t, exec (.storeRegs 0) (incrementing (machineI 0 0x300 [])) = .next t ∧
      t.i ≠ (incrementing (machineI 0 0x300 [])).i) := ⟨⟨_, by rfl, by decide⟩, ⟨_, by rfl, by decide⟩⟩
theorem witness_EachFieldIsWritten_timers :
    (∃ t, exec (.ldDtVx 0) (machine 0 [(0, 1)]) = .next t ∧ t.dt ≠ (machine 0 [(0, 1)]).dt) ∧
    (∃ t, exec (.ldStVx 0) (machine 0 [(0, 1)]) = .next t ∧ t.st ≠ (machine 0 [(0, 1)]).st) :=
  ⟨⟨_, by rfl, by decide⟩, ⟨_, by rfl, by decide⟩⟩
theorem witness_EachFieldIsWritten_stack : ∃ t, exec (.call 0x300) State.reset = .next t ∧
    t.stack ≠ State.reset.stack := ⟨_, by rfl, by decide⟩
theorem witness_EachFieldIsWritten_mem : ∃ t, exec (.ldBcd 0) (machineI 0 0x300 [(0, 255)]) = .next t ∧
    ∃ a, t.readByte a ≠ (machineI 0 0x300 [(0, 255)]).readByte a := ⟨_, by rfl, 0x300, by decide⟩
theorem witness_EachFieldIsWritten_fb : ∃ t, exec (.drw 0 0 5) State.reset = .next t ∧ t.fb ≠ State.reset.fb :=
  ⟨_, by rfl, by decide⟩
theorem witness_EachFieldIsWritten_draws : ∃ t, exec (.rnd 0 0) State.reset = .next t ∧
    t.draws ≠ State.reset.draws := ⟨_, rfl, by decide⟩
theorem witness_RegistersAreWrittenOnlyAsListed : ∃ t, exec (.addReg 1 2) (machine 0 [(1, 0xFF), (2, 1)]) = .next t ∧
    t.getV VF ≠ (machine 0 [(1, 0xFF), (2, 1)]).getV VF := ⟨_, by rfl, by decide⟩
theorem witness_PcAfterEachInstruction : ∃ t, State.reset.status = .running ∧ exec (.jp 0xFFF) State.reset = .next t ∧
    t.status = .running := ⟨_, by rfl, by rfl, by rfl⟩
theorem witness_SoundTimerAffectsNothingElse : ∃ t, exec (.ldVxDt 0) State.reset = .next t := ⟨_, rfl⟩

/-- A machine with a word of program placed and one return address: not the reset state. -/
def busy : State := (machine 0x1200 [(3, 9)]).setStack [0x1000]

theorem busy_inv : busy.Inv := by
  refine ⟨by decide, by decide, by decide, fun _ a ha => ?_⟩
  show Memory.read _ [(0x200, 0x12)] a = _
  unfold Memory.read
  rw [Memory.find, if_neg (by omega)]; rfl
theorem witness_StepKeepsInvariant : busy.Inv ∧ ∃ t, step busy = .next t := ⟨busy_inv, _, rfl⟩
theorem witness_EveryScheduleKeepsInvariant : busy.Inv := busy_inv
theorem witness_StepKeepsPcBounded : (busy.setPc 0x10FE).PcBounded ∧ ∃ t, step (busy.setPc 0x10FE) = .next t :=
  ⟨⟨by decide, by decide, fun a ha => by rw [List.mem_singleton.mp (show a ∈ [0x1000] from ha)]; decide⟩, _, rfl⟩
theorem witness_CanonicalMemoryIsDeterminedByItsReads : Memory.wf defaultConfig [(0x200, 1), (0xFFF, 2)] := by decide

theorem witness_AddAndSubSetVf : State.reset.cfg.vfOrder = .documentOrder ∧ (1 : Reg) ≠ VF := by decide
theorem witness_SubnSetsVf : State.reset.cfg.vfOrder = .documentOrder ∧ (14 : Reg) ≠ VF := by decide
theorem witness_ShiftsSetVf : State.reset.cfg.vfOrder = .documentOrder ∧ (14 : Reg) ≠ VF := by decide
theorem witness_ReturnPopsTheStack : (State.reset.setStack [0x202, 0x206]).stack = [0x202] ++ [0x206] ∧
    State.reset.stack = [] := by decide
theorem witness_JumpSetsPc : (0xFFF : Word).toNat ≤ 0xFFF := by decide
theorem witness_CallPushesAndJumps : (0xFFF : Word).toNat ≤ 0xFFF ∧
    (State.reset.setStack (List.replicate 15 0x206)).stack.length < State.reset.cfg.stackDepth ∧
    (State.reset.setStack (List.replicate 16 0x206)).stack.length = State.reset.cfg.stackDepth := by decide
theorem witness_ReturnUndoesCall : ∃ t u, State.reset.stack.length < State.reset.cfg.stackDepth ∧
    exec (.call 0x300) State.reset = .next t ∧ u = t.setV 0 7 ∧ u.stack = t.stack :=
  ⟨_, _, by decide, rfl, rfl, rfl⟩
theorem witness_ComputedJumpAddsV0 : (0xFFF : Word).toNat ≤ 0xFFF := by decide
theorem witness_IndexLoads : (0x000 : Word).toNat ≤ 0xFFF ∧ (0xFFF : Word).toNat ≤ 0xFFF := by decide

/-- A machine with one listed byte of memory and I set. -/
def indexed (i : Word) : State := (State.reset.writeBytes 0x300 [7]).setI i

theorem witness_BcdStoresThreeDigits : ∀ i : Word, i = 0x200 ∨ i = 0xFFD → Memory.wf (indexed i).cfg (indexed i).mem ∧
    (indexed i).base + 2 < (indexed i).cfg.memSize ∧
    ((indexed i).cfg.protectReserved = true → 0x200 ≤ (indexed i).base) := by
  rintro i (rfl | rfl) <;> decide
theorem witness_StoreRegistersWritesTheBlock : ∀ i : Word, i = 0x200 ∨ i = 0xFF0 →
    Memory.wf (indexed i).cfg (indexed i).mem ∧ (indexed i).base + (15 : Reg).val < (indexed i).cfg.memSize ∧
    ((indexed i).cfg.protectReserved = true → 0x200 ≤ (indexed i).base) := by
  rintro i (rfl | rfl) <;> decide
theorem witness_LoadRegistersReadsTheBlock : ∀ i : Word, i = 0 ∨ i = 0xFF0 →
    (indexed i).base + (15 : Reg).val < (indexed i).cfg.memSize := by
  rintro i (rfl | rfl) <;> decide
theorem witness_AccessPastMemoryFaults : (indexed 0xFFE).cfg.memSize < (indexed 0xFFE).base + 3 ∧
    (indexed 0x1000).cfg.memSize < (indexed 0x1000).base + ((0 : Reg).val + 1) ∧
    ((2 : Fin 16) ≠ 0 ∧ (indexed 0xFFF).cfg.memSize < (indexed 0xFFF).base + (2 : Fin 16).val) := by decide
theorem witness_StoreBelowProgramAreaFaults : (indexed 0x1FF).cfg.protectReserved = true ∧
    (indexed 0x1FF).base < 0x200 ∧ (indexed 0x1FF).base + 3 ≤ (indexed 0x1FF).cfg.memSize ∧
    (indexed 0x1FF).base + ((15 : Reg).val + 1) ≤ (indexed 0x1FF).cfg.memSize := by decide
theorem witness_FetchSeesTheStore : ∃ t, Memory.wf (indexed 0x200).cfg (indexed 0x200).mem ∧
    (indexed 0x200).status = .running ∧ 1 ≤ (1 : Reg).val ∧ (indexed 0x200).pc.toNat = (indexed 0x200).base ∧
    exec (.storeRegs 1) (indexed 0x200) = .next t ∧ t.status = .running :=
  ⟨_, by decide, by rfl, by decide, by decide, by rfl, by rfl⟩

theorem reset_covers : Covers State.reset 0 0 5 0 0 := ⟨0, 0, by decide, by decide, by decide, by decide, by decide⟩

/-- The machine with every pixel on. -/
def lit : State := State.reset.setFb (Vector.replicate 32 (BitVec.allOnes 64))

theorem witness_DrawXorsTheSprite :
    (State.reset.base + (5 : Fin 16).val ≤ State.reset.cfg.memSize ∧ Covers State.reset 0 0 5 0 0 ∧
      ¬ ∃ r c, Covers State.reset 0 0 5 r c ∧ pixelAt State.reset.fb r c = true) ∧
    (lit.base + (5 : Fin 16).val ≤ lit.cfg.memSize ∧ ∃ r c, Covers lit 0 0 5 r c ∧ pixelAt lit.fb r c = true) ∧
    ((0 : Fin 16) = 0 ∧ ¬ ∃ r c, Covers State.reset 0 0 0 r c ∧ pixelAt State.reset.fb r c = true) := by
  have off : ∀ n, ¬ ∃ r c, Covers State.reset 0 0 n r c ∧ pixelAt State.reset.fb r c = true := by
    rintro n ⟨r, c, -, h⟩
    rw [show pixelAt State.reset.fb r c = false from pixelAt_clear r c] at h
    cases h
  exact ⟨⟨by decide, reset_covers, off 5⟩, ⟨by decide, 0, 0, reset_covers, by decide⟩, rfl, off 0⟩
theorem witness_DrawingTwiceRestoresTheScreen : ∃ t u v, State.reset.base + (5 : Fin 16).val ≤ State.reset.cfg.memSize ∧
    exec (.drw 0 0 5) State.reset = .next t ∧ u = { t with v := State.reset.v } ∧ exec (.drw 0 0 5) u = .next v ∧
    ∀ r c, pixelAt State.reset.fb r c = false :=
  ⟨_, _, _, by decide, rfl, rfl, rfl, fun r c => pixelAt_clear r c⟩
theorem witness_NoPixelIsTouchedTwice : spriteRow 31 14 = spriteRow 31 14 ∧ spriteColumn 63 7 = spriteColumn 63 7 ∧
    (14 < 15 ∧ 7 < 8) := by decide
theorem witness_QueriesChangeNothing : (64 ≤ 64 ∨ 32 ≤ 0) ∧ (64 ≤ 0 ∨ 32 ≤ 32) := by decide

theorem witness_SetKeysAndFirstPressed :
    ((keys [3, 9])[(3 : Reg).val] = true ∧ ∀ j : Reg, j < 3 → (keys [3, 9])[j.val] = false) ∧
    ∀ k : Reg, (keys [])[k.val] = false := by decide
theorem witness_KeySkipsByIndex : (machine 0xE29E [(2, 15)]).cfg.keySkipMode = .keyIndexed ∧
    ((machine 0xE29E [(2, 15)]).getV 2).toNat = (15 : Reg).val ∧
    16 ≤ ((machine 0xE29E [(2, 16)]).getV 2).toNat := by decide
theorem witness_KeySkipsByFirstPressed :
    ({ State.reset with cfg := { defaultConfig with keySkipMode := .firstPressed } } : State).cfg.keySkipMode =
      .firstPressed := rfl
theorem witness_KeyWaitTakesTheLowestKey :
    ((State.reset.setKey (keys [15])).key[(15 : Reg).val] = true ∧
      ∀ j : Reg, j < 15 → (State.reset.setKey (keys [15])).key[j.val] = false) ∧
    ∀ k : Reg, State.reset.key[k.val] = false := by decide

theorem machine_runs_ldImm : (machine 0x6A2B []).runs (.ldImm 10 0x2B) := ⟨by rfl, by decide⟩
theorem witness_TimersCountTicksInAnySchedule :
    OnlyTicksChangeDt [.tick, .step, .tick] (machine 0x6A2B []) ∧
    OnlyTicksChangeSt [.tick, .step, .tick] (machine 0x6A2B []) := by
  have h : (perform .tick (machine 0x6A2B [])).1.runs (.ldImm 10 0x2B) := ⟨by rfl, by decide⟩
  have other : ∀ {i : Instr}, (perform .tick (machine 0x6A2B [])).1.runs i → i = .ldImm 10 0x2B := by
    intro i hi
    have := hi.2.symm.trans h.2
    cases this; rfl
  refine ⟨⟨by simp, by simp, by simp, ?_, by simp, by simp, trivial⟩,
    ⟨by simp, by simp, by simp, ?_, by simp, by simp, trivial⟩⟩ <;>
  · intro _ x hx
    cases other hx

theorem witness_LoadResetsTheMachine :
    (List.replicate 3584 (0 : Byte)).length ≤ State.reset.cfg.memSize - 0x200 ∧
    State.reset.cfg.memSize - 0x200 < (List.replicate 3585 (0 : Byte)).length := by
  rw [List.length_replicate, List.length_replicate]; decide
theorem witness_LoadThenStepRunsTheFirstWord :
    ([] : List Byte).length + 2 ≤ State.reset.cfg.memSize - 0x200 ∧
    decode (BitVec.ofNat 16 (0x100 * (0x6A : Byte).toNat + (0x2B : Byte).toNat)) = .ok (.ldImm 10 0x2B) := by decide
theorem witness_GoodEndIsAFixpoint : GoodEnd (machine 0x1200 []) 0x200 := by decide

end Sys2Proof.Tests
end

section
/-! SUPPORT. Frames: what each update of the state leaves unchanged, in the terms of `KeepsAllBut`. -/

namespace Sys2Proof.Machine

theorem Part.Same.trans {s t u : State} {p : Part} (h : p.Same s t) (k : p.Same t u) : p.Same s u := by
  cases p with
  | v => exact fun r => (k r).trans (h r)
  | mem => exact fun a => (k a).trans (h a)
  | _ => exact Eq.trans k h

theorem KeepsAllBut.trans {l m : List Part} {s t u : State} (h : KeepsAllBut l s t) (k : KeepsAllBut m t u) :
    KeepsAllBut (l ++ m) s u := fun p hp =>
  (h p fun hl => hp (List.mem_append_left m hl)).trans (k p fun hm => hp (List.mem_append_right l hm))

theorem KeepsAllBut.mono {l m : List Part} {s t : State} (h : KeepsAllBut l s t) (hlm : l ⊆ m) :
    KeepsAllBut m s t := fun p hp => h p fun hl => hp (hlm hl)

section
variable (s : State)

theorem keepsAllBut_setV (x : Reg) (b : Byte) : KeepsAllBut [.v] s (s.setV x b) := by
  intro p hp; cases p <;> simp_all [Part.Same]

theorem keepsAllBut_setI (a : Word) : KeepsAllBut [.i] s (s.setI a) := by
  intro p hp; cases p <;> simp_all [Part.Same]

theorem keepsAllBut_setPc (a : Word) : KeepsAllBut [.pc] s (s.setPc a) := by
  intro p hp; cases p <;> simp_all [Part.Same]

theorem keepsAllBut_setDt (b : Byte) : KeepsAllBut [.dt] s (s.setDt b) := by
  intro p hp; cases p <;> simp_all [Part.Same]

theorem keepsAllBut_setSt (b : Byte) : KeepsAllBut [.st] s (s.setSt b) := by
  intro p hp; cases p <;> simp_all [Part.Same]

theorem keepsAllBut_setStack (l : List Word) : KeepsAllBut [.stack] s (s.setStack l) := by
  intro p hp; cases p <;> simp_all [Part.Same]

theorem keepsAllBut_setFb (f : Framebuffer) : KeepsAllBut [.fb] s (s.setFb f) := by
  intro p hp; cases p <;> simp_all [Part.Same]

theorem keepsAllBut_writeBytes (a : Nat) (bs : List Byte) : KeepsAllBut [.mem] s (s.writeBytes a bs) := by
  intro p hp; cases p <;> simp_all [Part.Same]

theorem keepsAllBut_drawn : KeepsAllBut [.draws] s s.drawn := by
  intro p hp; cases p <;> simp_all [Part.Same, State.drawn]

theorem keepsAllBut_skipIf (c : Bool) : KeepsAllBut [.pc] s (s.skipIf c) := by
  intro p hp; cases p <;> simp_all [Part.Same]

theorem keepsAllBut_writeResultFlag (d : Bool) (x : Reg) (r : Byte) (g : Bool) :
    KeepsAllBut [.v] s (s.writeResultFlag d x r g) := by
  intro p hp; cases p <;> simp_all [Part.Same]

theorem keepsAllBut_setRegsFrom (k : Nat) (bs : List Byte) : KeepsAllBut [.v] s (s.setRegsFrom k bs) := by
  intro p hp; cases p <;> simp_all [Part.Same]

/-- I, where FX55 and FX65 advance it (43 R234, R235). -/
def advancedParts (c : Config) : List Part := if c.lsIncrementI then [.i] else []

theorem keepsAllBut_advanceI (x : Reg) {c : Config} (hc : s.cfg = c) :
    KeepsAllBut (advancedParts c) s (s.advanceI x) := by
  subst hc
  intro p hp; cases p <;> simp_all [Part.Same, advanceI_i, advancedParts]

theorem keepsAllBut_faultedAt (f : Fault) : KeepsAllBut [.pc, .status] s (faultedAt s f) := by
  intro p hp; cases p <;> simp_all [Part.Same, faultedAt, State.getV, State.readByte]

end

end Sys2Proof.Machine
end

section
/-! SUPPORT. What the instructions that can fault, and FX0A, answer: either the fault, or the state they commit. -/

namespace Sys2Proof.Machine

variable {s t : State} {x y : Reg}

/-- A transaction commits its state or answers `faultedAt`. -/
theorem transact_commits_or_faults {r : Except Fault State} (h : transact s r = .next t) :
    r = .ok t ∨ ∃ f, t = faultedAt s f := by
  rcases transact_cases s h with hr | ⟨f, -, ht⟩
  · exact .inl hr
  · exact .inr ⟨f, ht⟩

theorem exec_ret_cases (h : exec .ret s = .next t) :
    (∃ f, t = faultedAt s f) ∨ ∃ l a, s.stack = l ++ [a] ∧ t = (s.setStack l).setPc a := by
  rcases popStack_cases s (encode .ret) with ⟨l, a, hs, hp⟩ | ⟨-, hp⟩ <;>
    simp only [exec, execRet, hp] at h <;> cases h
  · exact .inr ⟨l, a, hs, rfl⟩
  · exact .inl ⟨_, rfl⟩

theorem exec_call_cases {nnn : Word} (h : exec (.call nnn) s = .next t) :
    (∃ f, t = faultedAt s f) ∨ t = (s.setStack (s.stack ++ [s.pc])).setPc nnn := by
  by_cases hd : s.stack.length < s.cfg.stackDepth
  · simp only [exec, execCall, pushStack_ok s hd] at h
    cases h
    exact .inr rfl
  · simp only [exec, execCall, pushStack_full s (Nat.le_of_not_lt hd)] at h
    cases h
    exact .inl ⟨_, rfl⟩

theorem exec_drw_cases {n : Fin 16} (h : exec (.drw x y n) s = .next t) :
    (∃ f, t = faultedAt s f) ∨ ∃ out, out = draw s.fb (s.getV x).toNat (s.getV y).toNat (s.readBytes s.base n.val) ∧
      t = (s.setFb out.1).setV VF (flagByte out.2) := by
  simp only [exec, execDrw] at h
  split at h <;> cases h
  · next hr => rw [(memRead_cases s hr).1]; exact .inr ⟨_, rfl, rfl⟩
  · exact .inl ⟨_, rfl⟩

theorem exec_skp_cases (h : exec (.skp x) s = .next t) :
    (∃ f, t = faultedAt s f) ∨
      ∃ down, s.keyTest (encode (.skp x)) (s.getV x) = .ok down ∧ t = s.skipIf down := by
  simp only [exec, execSkp] at h
  split at h <;> cases h
  · next down hk => exact .inr ⟨down, hk, rfl⟩
  · exact .inl ⟨_, rfl⟩

theorem exec_sknp_cases (h : exec (.sknp x) s = .next t) :
    (∃ f, t = faultedAt s f) ∨
      ∃ down, s.keyTest (encode (.sknp x)) (s.getV x) = .ok down ∧ t = s.skipIf (!down) := by
  simp only [exec, execSknp] at h
  split at h <;> cases h
  · next down hk => exact .inr ⟨down, hk, rfl⟩
  · exact .inl ⟨_, rfl⟩

theorem exec_ldVxKey_cases (h : exec (.ldVxKey x) s = .next t) :
    (∃ k, s.firstPressed = some k ∧ t = s.setV x (BitVec.ofNat 8 k.val)) ∨
      (s.firstPressed = none ∧ t = s.setPc s.pc0) := by
  cases hk : s.firstPressed with
  | some k => simp only [exec, execLdVxKey, hk] at h; cases h; exact .inl ⟨k, rfl, rfl⟩
  | none => simp only [exec, execLdVxKey, hk] at h; cases h; exact .inr ⟨rfl, rfl⟩

theorem exec_ldBcd_cases (h : exec (.ldBcd x) s = .next t) :
    (∃ f, t = faultedAt s f) ∨ t = s.writeBytes s.base (bcdDigits (s.getV x)) := by
  rcases transact_commits_or_faults h with hw | hf
  · exact .inr (memWrite_cases s hw).1
  · exact .inl hf

theorem exec_storeRegs_cases (h : exec (.storeRegs x) s = .next t) :
    (∃ f, t = faultedAt s f) ∨ t = (s.writeBytes s.base (s.regsUpTo x)).advanceI x := by
  simp only [exec, execStoreRegs] at h
  split at h <;> cases h
  · next hw => rw [(memWrite_cases s hw).1]; exact .inr rfl
  · exact .inl ⟨_, rfl⟩

theorem exec_loadRegs_cases (h : exec (.loadRegs x) s = .next t) :
    (∃ f, t = faultedAt s f) ∨ t = (s.setRegsFrom 0 (s.readBytes s.base (x.val + 1))).advanceI x := by
  simp only [exec, execLoadRegs] at h
  split at h <;> cases h
  · next hr => rw [(memRead_cases s hr).1]; exact .inr rfl
  · exact .inl ⟨_, rfl⟩

end Sys2Proof.Machine
end

section
/-! PROOFS. The "written by" column of 10 R30 as one frame over every instruction, and the statements of
10_state.md sections 1 and 2 (O14, O15) from it. -/

namespace Sys2Proof.Machine

/-- The pieces of state an instruction may write when it raises no fault (10 R30). -/
def writtenParts (c : Config) : Instr → List Part
  | .cls => [.fb]
  | .ret | .call _ => [.stack, .pc]
  | .jp _ | .jpV0 _ | .seImm _ _ | .sneImm _ _ | .seReg _ _ | .sneReg _ _ | .skp _ | .sknp _ => [.pc]
  | .ldImm _ _ | .addImm _ _ | .ldReg _ _ | .orReg _ _ | .andReg _ _ | .xorReg _ _ | .addReg _ _ | .subReg _ _
  | .shr _ _ | .subnReg _ _ | .shl _ _ | .ldVxDt _ => [.v]
  | .ldVxKey _ => [.v, .pc]
  | .rnd _ _ => [.draws, .v]
  | .drw _ _ _ => [.fb, .v]
  | .ldI _ | .addIVx _ | .ldFont _ => [.i]
  | .ldDtVx _ => [.dt]
  | .ldStVx _ => [.st]
  | .ldBcd _ => [.mem]
  | .storeRegs _ => [.mem] ++ advancedParts c
  | .loadRegs _ => [.v] ++ advancedParts c

/-- Every instruction raises a fault or writes no more than its parts. -/
theorem exec_faults_or_keeps {i : Instr} {s t : State} (h : exec i s = .next t) :
    (∃ f, t = faultedAt s f) ∨ KeepsAllBut (writtenParts s.cfg i) s t := by
  cases i with
  | cls => cases h; exact .inr (keepsAllBut_setFb s _)
  | ret =>
    rcases exec_ret_cases h with hf | ⟨l, a, -, rfl⟩
    · exact .inl hf
    · exact .inr ((keepsAllBut_setStack s l).trans (keepsAllBut_setPc _ a))
  | call nnn =>
    rcases exec_call_cases h with hf | rfl
    · exact .inl hf
    · exact .inr ((keepsAllBut_setStack s _).trans (keepsAllBut_setPc _ nnn))
  | jp _ | jpV0 _ => cases h; exact .inr (keepsAllBut_setPc s _)
  | seImm _ _ | sneImm _ _ | seReg _ _ | sneReg _ _ => cases h; exact .inr (keepsAllBut_skipIf s _)
  | skp x =>
    rcases exec_skp_cases h with hf | ⟨down, -, rfl⟩
    · exact .inl hf
    · exact .inr (keepsAllBut_skipIf s down)
  | sknp x =>
    rcases exec_sknp_cases h with hf | ⟨down, -, rfl⟩
    · exact .inl hf
    · exact .inr (keepsAllBut_skipIf s _)
  | ldImm _ _ | addImm _ _ | ldReg _ _ | orReg _ _ | andReg _ _ | xorReg _ _ | ldVxDt _ =>
    cases h; exact .inr (keepsAllBut_setV s _ _)
  | addReg _ _ | subReg _ _ | shr _ _ | subnReg _ _ | shl _ _ =>
    cases h; exact .inr (keepsAllBut_writeResultFlag s _ _ _ _)
  | ldVxKey x =>
    rcases exec_ldVxKey_cases h with ⟨k, -, rfl⟩ | ⟨-, rfl⟩
    · exact .inr ((keepsAllBut_setV s x _).mono (by simp [writtenParts]))
    · exact .inr ((keepsAllBut_setPc s _).mono (by simp [writtenParts]))
  | rnd x kk => cases h; exact .inr ((keepsAllBut_drawn s).trans (keepsAllBut_setV _ x _))
  | drw x y n =>
    rcases exec_drw_cases h with hf | ⟨out, -, rfl⟩
    · exact .inl hf
    · exact .inr ((keepsAllBut_setFb s out.1).trans (keepsAllBut_setV _ VF _))
  | ldI _ | addIVx _ | ldFont _ => cases h; exact .inr (keepsAllBut_setI s _)
  | ldDtVx x => cases h; exact .inr (keepsAllBut_setDt s _)
  | ldStVx x => cases h; exact .inr (keepsAllBut_setSt s _)
  | ldBcd x =>
    rcases exec_ldBcd_cases h with hf | rfl
    · exact .inl hf
    · exact .inr (keepsAllBut_writeBytes s _ _)
  | storeRegs x =>
    rcases exec_storeRegs_cases h with hf | rfl
    · exact .inl hf
    · exact .inr ((keepsAllBut_writeBytes s _ _).trans (keepsAllBut_advanceI _ x rfl))
  | loadRegs x =>
    rcases exec_loadRegs_cases h with hf | rfl
    · exact .inl hf
    · exact .inr ((keepsAllBut_setRegsFrom s 0 _).trans (keepsAllBut_advanceI _ x (setRegsFrom_cfg s 0 _)))

/-- A part that a fault leaves alone is changed only by an instruction that lists it. -/
theorem mem_writtenParts_of_changed {i : Instr} {s t : State} {p : Part} (h : exec i s = .next t)
    (hp : p ∉ [Part.pc, Part.status]) (hc : ¬ p.Same s t) : p ∈ writtenParts s.cfg i := by
  by_contra hw
  rcases exec_faults_or_keeps h with ⟨f, rfl⟩ | hk
  · exact hc (keepsAllBut_faultedAt s f p hp)
  · exact hc (hk p hw)

/-- No instruction writes the parameters, the keypad or, without a fault, the status (10 R30). -/
theorem not_mem_writtenParts (c : Config) (i : Instr) {p : Part} (hp : p = .cfg ∨ p = .key ∨ p = .status) :
    p ∉ writtenParts c i := by
  rcases hp with rfl | rfl | rfl <;> cases i <;> simp [writtenParts, advancedParts]

theorem exec_keeps_cfg {i : Instr} {s t : State} (h : exec i s = .next t) : t.cfg = s.cfg :=
  not_not.mp fun hc => not_mem_writtenParts s.cfg i (.inl rfl) (mem_writtenParts_of_changed h (by decide) hc)

theorem exec_keeps_key {i : Instr} {s t : State} (h : exec i s = .next t) : t.key = s.key :=
  not_not.mp fun hc =>
    not_mem_writtenParts s.cfg i (.inr (.inl rfl)) (mem_writtenParts_of_changed h (by decide) hc)

/-! The instructions that list a part are those the column of 10 R30 names. -/

theorem stack_mem_writtenParts {c : Config} {i : Instr} (h : Part.stack ∈ writtenParts c i) :
    i = .ret ∨ ∃ n, i = .call n := by
  cases i <;> simp_all [writtenParts, advancedParts]

theorem i_mem_writtenParts {c : Config} {i : Instr} (h : Part.i ∈ writtenParts c i) :
    (∃ n, i = .ldI n) ∨ (∃ x, i = .addIVx x) ∨ (∃ x, i = .ldFont x) ∨
      (c.lsIncrementI = true ∧ ∃ x, i = .storeRegs x ∨ i = .loadRegs x) := by
  cases i <;> simp_all [writtenParts, advancedParts]

theorem dt_mem_writtenParts {c : Config} {i : Instr} (h : Part.dt ∈ writtenParts c i) : ∃ x, i = .ldDtVx x := by
  cases i <;> simp_all [writtenParts, advancedParts]

theorem st_mem_writtenParts {c : Config} {i : Instr} (h : Part.st ∈ writtenParts c i) : ∃ x, i = .ldStVx x := by
  cases i <;> simp_all [writtenParts, advancedParts]

theorem mem_mem_writtenParts {c : Config} {i : Instr} (h : Part.mem ∈ writtenParts c i) :
    ∃ x, i = .ldBcd x ∨ i = .storeRegs x := by
  cases i <;> simp_all [writtenParts, advancedParts]

theorem fb_mem_writtenParts {c : Config} {i : Instr} (h : Part.fb ∈ writtenParts c i) :
    i = .cls ∨ ∃ x y n, i = .drw x y n := by
  cases i <;> simp_all [writtenParts, advancedParts]

theorem draws_mem_writtenParts {c : Config} {i : Instr} (h : Part.draws ∈ writtenParts c i) :
    ∃ x kk, i = .rnd x kk := by
  cases i <;> simp_all [writtenParts, advancedParts]

/-- Settles O14: a changed piece of state is among the parts its instruction lists. -/
theorem eachFieldIsWrittenOnlyByItsInstructions : Obligations.EachFieldIsWrittenOnlyByItsInstructions := by
  intro i s t h
  have written (p : Part) (hp : p ∉ [.pc, .status]) (hc : ¬ p.Same s t) : p ∈ writtenParts s.cfg i :=
    mem_writtenParts_of_changed h hp hc
  exact ⟨exec_keeps_cfg h, exec_keeps_key h,
    fun hc => i_mem_writtenParts (written .i (by decide) hc),
    fun hc => dt_mem_writtenParts (written .dt (by decide) hc),
    fun hc => st_mem_writtenParts (written .st (by decide) hc),
    fun hc => stack_mem_writtenParts (written .stack (by decide) hc),
    fun ⟨a, ha⟩ => mem_mem_writtenParts (written .mem (by decide) fun same => ha (same a)),
    fun hc => fb_mem_writtenParts (written .fb (by decide) hc),
    fun hc => draws_mem_writtenParts (written .draws (by decide) hc)⟩

/-! ### Registers (10 R33) -/

theorem eq_of_setV_getV_ne {s : State} {x r : Reg} {b : Byte} (h : (s.setV x b).getV r ≠ s.getV r) : r = x :=
  not_not.mp fun hr => h (setV_getV_other s b hr)

theorem eq_or_eq_of_writeResultFlag_getV_ne {s : State} {d : Bool} {x r : Reg} {b : Byte} {g : Bool}
    (h : (s.writeResultFlag d x b g).getV r ≠ s.getV r) : r = x ∨ r = VF := by
  by_contra hr
  obtain ⟨hx, hf⟩ := not_or.mp hr
  exact h (by simp [writeResultFlag_getV, hx, hf])

theorem le_of_setRegsFrom_getV_ne {s : State} {a : Nat} {x r : Reg}
    (h : (s.setRegsFrom 0 (s.readBytes a (x.val + 1))).getV r ≠ s.getV r) : r ≤ x := by
  have hlen : 0 + (s.readBytes a (x.val + 1)).length ≤ 16 := by simp
  by_contra hr
  refine h ?_
  rw [setRegsFrom_getV s 0 _ r hlen, dif_neg]
  rw [readBytes_length]
  have hxr : x.val < r.val := not_le.mp hr
  omega

/-- Settles O15: an instruction that does not list the register file leaves it alone, and each of the others writes
the registers of its row of 10 R33. -/
theorem registersAreWrittenOnlyAsListed : Obligations.RegistersAreWrittenOnlyAsListed := by
  intro i s t r h hr
  have hv : Part.v ∈ writtenParts s.cfg i := mem_writtenParts_of_changed h (by decide) fun same => hr (same r)
  cases i with
  | ldImm _ _ | addImm _ _ | ldReg _ _ | orReg _ _ | andReg _ _ | xorReg _ _ | ldVxDt _ | rnd _ _ =>
    cases h; exact eq_of_setV_getV_ne hr
  | addReg _ _ | subReg _ _ | shr _ _ | subnReg _ _ | shl _ _ =>
    cases h; exact eq_or_eq_of_writeResultFlag_getV_ne hr
  | drw x y n =>
    rcases exec_drw_cases h with ⟨f, rfl⟩ | ⟨out, -, rfl⟩
    · exact absurd rfl hr
    · exact eq_of_setV_getV_ne hr
  | ldVxKey x =>
    rcases exec_ldVxKey_cases h with ⟨k, -, rfl⟩ | ⟨-, rfl⟩
    · exact eq_of_setV_getV_ne hr
    · exact absurd rfl hr
  | loadRegs x =>
    rcases exec_loadRegs_cases h with ⟨f, rfl⟩ | rfl
    · exact absurd rfl hr
    · rw [advanceI_getV] at hr
      exact le_of_setRegsFrom_getV_ne hr
  | _ => simp [writtenParts, advancedParts] at hv

end Sys2Proof.Machine
end

section
/-! PROOFS. PC after an instruction (10 R35; O16), and its bound over a STEP (10 R36; O22). -/

namespace Sys2Proof.Machine

variable {s t : State}

theorem pc0_add_two (s : State) : s.pc0 + 2 = s.pc := BitVec.sub_add_cancel s.pc 2

theorem pc0_add_four (s : State) : s.pc0 + 4 = s.pc + 2 := by
  rw [← pc0_add_two s, BitVec.add_assoc]; rfl

/-- PC after a skip, counted from the skip's own address. -/
theorem skipIf_pc_eq_pc0 (s : State) (c : Bool) : (s.skipIf c).pc = if c then s.pc0 + 4 else s.pc0 + 2 := by
  rw [skipIf_pc, pc0_add_four, pc0_add_two]

theorem not_running_of_faultedAt (hr : t.status = .running) : ¬ ∃ f, t = faultedAt s f := by
  rintro ⟨f, rfl⟩
  cases hr

/-- Settles O16: an instruction that does not list PC leaves it at pc0 + 2, and each of the others sets it as its row
of 10 R35 says. -/
theorem pcAfterEachInstruction : Obligations.PcAfterEachInstruction := by
  intro i s t _ h hr
  have ok : ¬ ∃ f, t = faultedAt s f := not_running_of_faultedAt hr
  have hk : KeepsAllBut (writtenParts s.cfg i) s t := (exec_faults_or_keeps h).resolve_left ok
  cases i with
  | ret =>
    obtain ⟨l, a, hs, rfl⟩ := (exec_ret_cases h).resolve_left ok
    simp [pcAfter, hs]
  | call nnn =>
    obtain rfl := (exec_call_cases h).resolve_left ok
    rfl
  | jp nnn => cases h; rfl
  | jpV0 nnn =>
    cases h
    apply BitVec.eq_of_toNat_eq
    simp [pcAfter, BitVec.toNat_add]
  | seImm _ _ | sneImm _ _ | seReg _ _ | sneReg _ _ =>
    cases h
    simp [skipIf_pc_eq_pc0, pcAfter]
  | skp x =>
    obtain ⟨down, hd, rfl⟩ := (exec_skp_cases h).resolve_left ok
    simp [skipIf_pc_eq_pc0, pcAfter, hd]
  | sknp x =>
    obtain ⟨down, hd, rfl⟩ := (exec_sknp_cases h).resolve_left ok
    simp [skipIf_pc_eq_pc0, pcAfter, hd]
  | ldVxKey x =>
    rcases exec_ldVxKey_cases h with ⟨k, hp, rfl⟩ | ⟨hp, rfl⟩
    · simpa [pcAfter, hp] using (pc0_add_two s).symm
    · simp [pcAfter, hp]
  | _ =>
    have same : t.pc = s.pc := hk .pc (by simp [writtenParts, advancedParts])
    exact same.trans (pc0_add_two s).symm

/-! ### The bound of PC (10 R36) -/

theorem opcodeTable_builds_wellFormed {r : OpcodeRow} (hr : r ∈ opcodeTable) (w : Word) :
    (r.build w).wellFormed = true := by
  revert r
  simp [opcodeTable, opcodeRowsLow, opcodeRowsRegister, opcodeRowsHigh, opcodeRowsMisc, Instr.wellFormed]

theorem wellFormed_of_decode {w : Word} {i : Instr} (h : decode w = .ok i) : i.wellFormed = true := by
  rcases decode_cases w with ⟨r, hr, -, hd⟩ | ⟨-, hd⟩
  · cases hd.symm.trans h
    exact opcodeTable_builds_wellFormed hr w
  · cases hd.symm.trans h

/-- PC is at most 0x10FE after any instruction at pc0 ≤ 0xFFE: BNNN reaches furthest, to 0xFFF + 0xFF. -/
theorem pcAfter_le {i : Instr} (hi : i.wellFormed = true) (hpc : s.pc0.toNat ≤ 0xFFE)
    (hs : ∀ a ∈ s.stack, a.toNat ≤ 4096) : (pcAfter i s).toNat ≤ 0x10FE := by
  have h2 : (s.pc0 + 2).toNat ≤ 0x10FE := by bv_omega
  have h4 : (s.pc0 + 4).toNat ≤ 0x10FE := by bv_omega
  cases i with
  | ret =>
    show (s.stack.getLast?.getD 0).toNat ≤ 0x10FE
    cases hl : s.stack.getLast? with
    | none => decide
    | some a => exact (hs a (List.mem_of_getLast? hl)).trans (by decide)
  | jp nnn | call nnn =>
    have : nnn.toNat ≤ 0xFFF := of_decide_eq_true hi
    exact this.trans (by decide)
  | jpV0 nnn =>
    have hn : nnn.toNat ≤ 0xFFF := of_decide_eq_true hi
    have hv := (s.getV 0).isLt
    show (BitVec.ofNat 16 (nnn.toNat + (s.getV 0).toNat)).toNat ≤ 0x10FE
    rw [BitVec.toNat_ofNat]
    omega
  | seImm _ _ | sneImm _ _ | seReg _ _ | sneReg _ _ | skp _ | sknp _ =>
    simp only [pcAfter]
    split
    · exact h4
    · exact h2
  | ldVxKey x =>
    simp only [pcAfter]
    split
    · exact hpc.trans (by decide)
    · exact h2
  | _ => exact h2

/-- An entry of the stack after an instruction was there before, or is the PC that a CALL pushed. -/
theorem exec_stack_entries {i : Instr} (h : exec i s = .next t) {a : Word} (ha : a ∈ t.stack) :
    a ∈ s.stack ∨ a = s.pc := by
  by_cases same : t.stack = s.stack
  · exact .inl (same ▸ ha)
  rcases stack_mem_writtenParts (mem_writtenParts_of_changed h (p := .stack) (by decide) same) with rfl | ⟨n, rfl⟩
  · rcases exec_ret_cases h with ⟨f, rfl⟩ | ⟨l, b, hs, rfl⟩
    · exact .inl ha
    · exact .inl (hs ▸ List.mem_append_left [b] ha)
  · rcases exec_call_cases h with ⟨f, rfl⟩ | rfl
    · exact .inl ha
    · simpa using ha

/-- One instruction fetched from inside 4096 bytes of memory keeps the bound. -/
theorem exec_pcBounded {i : Instr} (hi : i.wellFormed = true) (hr : s.status = .running)
    (hm : s.cfg.memSize ≤ 4096) (hpc : s.pc0.toNat ≤ 0xFFE) (hs : ∀ a ∈ s.stack, a.toNat ≤ 4096)
    (h : exec i s = .next t) : t.PcBounded where
  memSize := by rw [exec_keeps_cfg h]; exact hm
  pc := by
    rcases exec_faults_or_keeps h with ⟨f, rfl⟩ | hk
    · exact Nat.le_trans hpc (by decide)
    · have same : t.status = s.status := hk .status (not_mem_writtenParts _ _ (.inr (.inr rfl)))
      rw [pcAfterEachInstruction i s t hr h (same.trans hr)]
      exact pcAfter_le hi hpc hs
  stack := fun a ha => by
    rcases exec_stack_entries h ha with hold | rfl
    · exact hs a hold
    · rw [← pc0_add_two s]
      bv_omega

/-- Settles O22: a faulted machine and a fetch fault leave PC and the stack alone; an instruction was fetched from
pc0 ≤ 0xFFE and keeps the bound. -/
theorem stepKeepsPcBounded : Obligations.StepKeepsPcBounded := by
  intro s t hb h
  rcases step_cases s with ⟨f, -, hstep⟩ | ⟨f, -, -, hstep⟩ | ⟨i, hr, hf, hstep⟩
  · cases hstep.symm.trans h
    exact hb
  · cases hstep.symm.trans h
    exact ⟨hb.memSize, hb.pc, hb.stack⟩
  · obtain ⟨hin, hd⟩ := fetchInstr_cases s hf
    have hm := hb.memSize
    have hpc0 : s.advancePc.pc0.toNat ≤ 0xFFE := by rw [advancePc_pc0]; omega
    exact exec_pcBounded (s := s.advancePc) (wellFormed_of_decode hd) hr hm hpc0 hb.stack (hstep.symm.trans h)

end Sys2Proof.Machine
end

section
/-! PROOFS. The checks of a memory access and of the fetch, and the fetch of a stored word (20_memory.md sections 4
and 5; O8, O41, O42, O43). -/

namespace Sys2Proof.Machine

variable {s t : State} {x y : Reg}

/-! ### A fetch past memory (20 R82) -/

theorem fetchInstr_outOfRange (h : s.cfg.memSize ≤ s.pc.toNat + 1) :
    fetchInstr s = .error (.fetchOutOfRange s.pc) := by
  cases hf : fetchInstr s with
  | ok i => exact absurd (fetchInstr_cases s hf).1 (by omega)
  | error f =>
    rcases fetchInstr_error s hf with ⟨-, rfl⟩ | ⟨hin, -⟩
    · rfl
    · omega

/-- Settles O8: the fetch answers FetchOutOfRange, which the STEP takes. -/
theorem fetchPastMemoryFaults : Obligations.FetchPastMemoryFaults := fun s hr hm =>
  step_fetchFault s hr (fetchInstr_outOfRange hm)

/-! ### The words in the fault records (30 R106) -/

theorem encode_ldBcd (x : Reg) : encode (.ldBcd x) = wordXKK 0xF x 0x33 := (wordXKK_eq (by decide)).symm

theorem encode_storeRegs (x : Reg) : encode (.storeRegs x) = wordXKK 0xF x 0x55 := (wordXKK_eq (by decide)).symm

theorem encode_loadRegs (x : Reg) : encode (.loadRegs x) = wordXKK 0xF x 0x65 := (wordXKK_eq (by decide)).symm

theorem encode_drw (x y : Reg) (n : Fin 16) : encode (.drw x y n) = wordXYN 0xD x y n.val := by
  rw [wordXYN_eq n.isLt]
  exact congrArg (formXYN 0xD x y) (BitVec.eq_of_toNat_eq (by simp [nibble]))

/-! ### A refused access is the instruction's fault (40 R145) -/

variable {f : Fault}

theorem exec_ldBcd_of_error
    (h : memWrite s (wordXKK 0xF x 0x33) s.base (bcdDigits (s.getV x)) = .error f) :
    exec (.ldBcd x) s = .next (faultedAt s f) := by
  simp only [exec, execLdBcd, encode_ldBcd, h]
  rfl

theorem exec_storeRegs_of_error (h : memWrite s (wordXKK 0xF x 0x55) s.base (s.regsUpTo x) = .error f) :
    exec (.storeRegs x) s = .next (faultedAt s f) := by
  simp only [exec, execStoreRegs, encode_storeRegs, h]
  rfl

theorem exec_loadRegs_of_error (h : memRead s (wordXKK 0xF x 0x65) s.base (x.val + 1) = .error f) :
    exec (.loadRegs x) s = .next (faultedAt s f) := by
  simp only [exec, execLoadRegs, encode_loadRegs, h]
  rfl

theorem exec_drw_of_error {n : Fin 16} (h : memRead s (wordXYN 0xD x y n.val) s.base n.val = .error f) :
    exec (.drw x y n) s = .next (faultedAt s f) := by
  simp only [exec, execDrw, encode_drw, h]
  rfl

theorem bcdDigits_ne_nil (b : Byte) : bcdDigits b ≠ [] := List.cons_ne_nil _ _

theorem regsUpTo_ne_nil (s : State) (x : Reg) : s.regsUpTo x ≠ [] :=
  List.ne_nil_of_length_eq_add_one (regsUpTo_length s x)

/-! ### The range check and the reserved-write check (20 R80, R81) -/

theorem exec_storeRegs_outOfRange (h : s.cfg.memSize < s.base + (x.val + 1)) :
    exec (.storeRegs x) s = .next (faultedAt s
      (.memoryOutOfRange s.pc0 (wordXKK 0xF x 0x55) (max s.base s.cfg.memSize))) :=
  exec_storeRegs_of_error (memWrite_outOfRange s (regsUpTo_ne_nil s x) (by rwa [regsUpTo_length]))

/-- Settles O41: the stores and the reads each meet the range check first, with a block that is not empty. -/
theorem accessPastMemoryFaults : Obligations.AccessPastMemoryFaults := by
  intro s x y n
  refine ⟨fun h => ?_, fun h => ⟨?_, ?_⟩, fun hn h => ?_⟩
  · exact exec_ldBcd_of_error (memWrite_outOfRange s (bcdDigits_ne_nil _) h)
  · exact exec_storeRegs_outOfRange h
  · exact exec_loadRegs_of_error (memRead_outOfRange s (by omega))
  · have hn0 : n.val ≠ 0 := Fin.val_ne_of_ne hn
    exact exec_drw_of_error (memRead_outOfRange s (by omega))

/-- Settles O42: a block inside memory passes the range check, and one that starts below 0x200 fails the
reserved-write check at its first address. -/
theorem storeBelowProgramAreaFaults : Obligations.StoreBelowProgramAreaFaults := by
  intro s x hp hlow
  refine ⟨fun h => ?_, fun h => ?_⟩
  · exact exec_ldBcd_of_error (memWrite_reserved s (bcdDigits_ne_nil _) h hp hlow)
  · exact exec_storeRegs_of_error
      (memWrite_reserved s (regsUpTo_ne_nil s x) (by rwa [regsUpTo_length]) hp hlow)

/-! ### The fetch of a stored word (20 R87) -/

/-- An FX55 that raises no fault stores inside memory and commits its block. -/
theorem exec_storeRegs_running (h : exec (.storeRegs x) s = .next t) (hr : t.status = .running) :
    s.base + (x.val + 1) ≤ s.cfg.memSize ∧ t = (s.writeBytes s.base (s.regsUpTo x)).advanceI x := by
  have ok : ¬ ∃ f, t = faultedAt s f := not_running_of_faultedAt hr
  refine ⟨?_, (exec_storeRegs_cases h).resolve_left ok⟩
  by_contra hm
  cases h.symm.trans (exec_storeRegs_outOfRange (by omega))
  exact ok ⟨_, rfl⟩

/-- The block [V0..Vx] written at `a` reads back register by register (20 R85). -/
theorem writeBytes_regsUpTo_readByte (hm : Memory.wf s.cfg s.mem) (a : Nat) {k : Reg} (hk : k ≤ x) :
    (s.writeBytes a (s.regsUpTo x)).readByte (a + k.val) = s.getV k := by
  have hkx : k.val ≤ x.val := hk
  have hin : a ≤ a + k.val ∧ a + k.val < a + (s.regsUpTo x).length := by rw [regsUpTo_length]; omega
  rw [writeBytes_readByte s a _ _ hm, dif_pos hin]
  simp only [Nat.add_sub_cancel_left]
  exact regsUpTo_getElem s x k _

/-- Settles O43: the block is inside memory and PC is its first address, so the fetch passes its check and reads back
V0 and V1. -/
theorem fetchSeesTheStore : Obligations.FetchSeesTheStore := by
  intro s t x hm _ hx hpc h hr
  obtain ⟨hin, rfl⟩ := exec_storeRegs_running h hr
  have h0 := writeBytes_regsUpTo_readByte hm s.base (Fin.zero_le x)
  have h1 := writeBytes_regsUpTo_readByte hm s.base (k := 1) (x := x) hx
  have hfetch : s.base + 1 < s.cfg.memSize := by omega
  simp only [fetch, advanceI_pc, advanceI_cfg, advanceI_readByte, writeBytes_pc, writeBytes_cfg, hpc, if_pos hfetch]
  exact congrArg Except.ok (congrArg₂ wordOfBytes h0 h1)

end Sys2Proof.Machine
end

section
/-! PROOFS. The decoder and the opcode table (spec 30 R104 to R107; O4, O5). -/

namespace Sys2Proof.Machine

variable {s : State} {w : Word}

/-! ### The decoder is the table's (30 R104) -/

/-- The fetch of an Unrecognized word answers its fault (40 R144). -/
theorem fetchInstr_unrecognized (hpc : s.pc.toNat + 1 < s.cfg.memSize)
    (hw : wordOfBytes (s.readByte s.pc.toNat) (s.readByte (s.pc.toNat + 1)) = w)
    (hd : decode w = .error (.unrecognized w)) :
    fetchInstr s = .error (.unrecognizedOpcode s.pc w) := by
  simp only [fetchInstr, fetch, if_pos hpc, hw, hd]

theorem opcodeTable_row_unique {r q : OpcodeRow} (hr : r ∈ opcodeTable) (hq : q ∈ opcodeTable)
    (hwr : r.accepts w = true) (hwq : q.accepts w = true) : r = q :=
  Option.some.inj <|
    (find_of_accepts opcodeTable_disjoint hr hwr).symm.trans (find_of_accepts opcodeTable_disjoint hq hwq)

/-- Settles O4: the rows disagree pairwise on a bit both fix, so the search finds the one row a word satisfies; where
it finds none, the fetch answers the fault that the STEP takes. -/
theorem decodeFollowsOpcodeTable : Obligations.DecodeFollowsOpcodeTable := by
  refine ⟨fun w r hr hw => ?_, fun w r q hr hq hwr hwq => ?_, fun w hw => ?_⟩
  · exact decode_of_accepts hr ((r.accepts_iff w).mpr hw)
  · exact opcodeTable_row_unique hr hq ((r.accepts_iff w).mpr hwr) ((q.accepts_iff w).mpr hwq)
  · have hd : decode w = .error (.unrecognized w) := (decode_unrecognized_iff w).mpr hw
    exact ⟨hd, fun s hs hpc hfetched => step_fetchFault s hs (fetchInstr_unrecognized hpc hfetched hd)⟩

/-! ### The fields that a row compares (30 R101, R105) -/

/-- Under the full mask, a word is compared whole. -/
theorem and_FFFF_eq_iff {p : Word} : w &&& 0xFFFF#16 = p ↔ w.toNat = p.toNat := by
  rw [and_FFFF, BitVec.toNat_inj]

/-- Under the mask of the class, a word is compared by its class. -/
theorem and_F000_eq_iff_class {p : Word} (hp : p &&& 0xF000#16 = p) :
    w &&& 0xF000#16 = p ↔ w.toNat / 0x1000 = p.toNat / 0x1000 := by
  rw [and_F000_eq_iff] at hp ⊢
  omega

/-- Under the mask of the class and `n`, a word is compared by these two. -/
theorem and_F00F_eq_iff_class_n {p : Word} (hp : p &&& 0xF00F#16 = p) :
    w &&& 0xF00F#16 = p ↔ w.toNat / 0x1000 = p.toNat / 0x1000 ∧ w.toNat % 0x10 = p.toNat % 0x10 := by
  rw [and_F00F_eq_iff] at hp ⊢
  omega

/-- Under the mask of the class and `kk`, a word is compared by these two. -/
theorem and_F0FF_eq_iff_class_kk {p : Word} (hp : p &&& 0xF0FF#16 = p) :
    w &&& 0xF0FF#16 = p ↔ w.toNat / 0x1000 = p.toNat / 0x1000 ∧ w.toNat % 0x100 = p.toNat % 0x100 := by
  rw [and_F0FF_eq_iff] at hp ⊢
  omega

/-! ### The words that no row of a part of the table accepts (30 R107) -/

theorem rejected_low_iff : (∀ r ∈ opcodeRowsLow, ¬ w &&& r.mask = r.pattern) ↔
    w.toNat ≠ 0x00E0 ∧ w.toNat ≠ 0x00EE ∧ w.toNat / 0x1000 ∉ [0x1, 0x2, 0x3, 0x4] ∧
      (w.toNat / 0x1000 = 0x5 → w.toNat % 0x10 ≠ 0) ∧ w.toNat / 0x1000 ∉ [0x6, 0x7] := by
  simp [opcodeRowsLow, and_F000_eq_iff_class, and_F00F_eq_iff_class_n, and_FFFF_eq_iff, and_assoc]

theorem rejected_register_iff : (∀ r ∈ opcodeRowsRegister, ¬ w &&& r.mask = r.pattern) ↔
    (w.toNat / 0x1000 = 0x8 → w.toNat % 0x10 ∉ [0x0, 0x1, 0x2, 0x3, 0x4, 0x5, 0x6, 0x7, 0xE]) ∧
      (w.toNat / 0x1000 = 0x9 → w.toNat % 0x10 ≠ 0) := by
  simp [opcodeRowsRegister, and_F00F_eq_iff_class_n, imp_and, and_assoc]

theorem rejected_high_iff : (∀ r ∈ opcodeRowsHigh, ¬ w &&& r.mask = r.pattern) ↔
    w.toNat / 0x1000 ∉ [0xA, 0xB, 0xC, 0xD] ∧ (w.toNat / 0x1000 = 0xE → w.toNat % 0x100 ∉ [0x9E, 0xA1]) := by
  simp [opcodeRowsHigh, and_F000_eq_iff_class, and_F0FF_eq_iff_class_kk, imp_and, and_assoc]

theorem rejected_misc_iff : (∀ r ∈ opcodeRowsMisc, ¬ w &&& r.mask = r.pattern) ↔
    (w.toNat / 0x1000 = 0xF →
      w.toNat % 0x100 ∉ [0x07, 0x0A, 0x15, 0x18, 0x1E, 0x29, 0x33, 0x55, 0x65]) := by
  simp [opcodeRowsMisc, and_F0FF_eq_iff_class_kk, imp_and]

/-- The words 8XYN that no row accepts, by their `n`. -/
theorem not_mem_aluN_iff {n : Nat} (hn : n < 0x10) :
    n ∉ [0x0, 0x1, 0x2, 0x3, 0x4, 0x5, 0x6, 0x7, 0xE] ↔ n ∈ [0x8, 0x9, 0xA, 0xB, 0xC, 0xD, 0xF] := by
  interval_cases n <;> decide

/-- Settles O5: a word is Unrecognized where no part of the table accepts it. Each class but 0 is compared by the rows
of one part, and the two whole words 00E0 and 00EE are of class 0. -/
theorem unrecognizedWordsAreThoseListed : Obligations.UnrecognizedWordsAreThoseListed := by
  intro w
  have hn : w.toNat % 0x10 < 0x10 := Nat.mod_lt _ (by decide)
  have hclass : w.toNat / 0x1000 < 0x10 := by have := w.isLt; omega
  have hwhole : w.toNat / 0x1000 ≠ 0 → w.toNat ≠ 0x00E0 ∧ w.toNat ≠ 0x00EE := by omega
  rw [decode_unrecognized_iff, opcodeTable]
  simp only [List.forall_mem_append, rejected_low_iff, rejected_register_iff, rejected_high_iff, rejected_misc_iff,
    not_mem_aluN_iff hn]
  generalize w.toNat / 0x1000 = c at hclass hwhole ⊢
  interval_cases c <;> simp [hwhole]

end Sys2Proof.Machine
end

section
/-! PROOFS. The STEP cycle (40_cycle.md sections 1 to 3; O6, O7, O9, O10, O12). -/

namespace Sys2Proof.Machine

variable {s t : State} {x : Reg}

/-! ### The cases of a STEP (40 R140 to R144) -/

theorem decode_of_decodeBytes {hi lo : Byte} {rest rest' : List Byte} {i : Instr}
    (h : decodeBytes (hi :: lo :: rest) = .ok (i, rest')) : decode (wordOfBytes hi lo) = .ok i := by
  simp only [decodeBytes] at h
  split at h <;> cases h
  assumption

/-- Settles O6: the two bytes at PC decode to the instruction that the fetch answers. -/
theorem stepRunsTheDecodedInstruction : Obligations.StepRunsTheDecodedInstruction := fun s _ hr hpc hd =>
  step_running s hr (fetchInstr_ok s hpc (decode_of_decodeBytes hd))

theorem stepReply_faulted {f : Fault} (h : s.status = .faulted f) : stepReply s = .fault f := by
  simp only [stepReply, h]

/-- A STEP that ends in a faulted state returns its fault to the host (60 R322). -/
theorem perform_step_faulted {f : Fault} (h : step s = .next t) (hf : t.status = .faulted f) :
    perform .step s = (t, .fault f) :=
  (perform_step s h).trans (congrArg (Prod.mk t) (stepReply_faulted hf))

/-- Settles O7: a faulted machine does not move, and the reply is read from its status. -/
theorem faultedStepRepeatsTheFault : Obligations.FaultedStepRepeatsTheFault := fun s _ hf =>
  ⟨step_faulted s hf, perform_step_faulted (step_faulted s hf) hf⟩

/-- Settles O9: the fetch answers UnrecognizedOpcode, which the STEP takes and returns. -/
theorem unrecognizedWordFaults : Obligations.UnrecognizedWordFaults := by
  intro s w hr hpc hw hd
  have hstep := step_fetchFault s hr (fetchInstr_unrecognized hpc hw hd)
  exact ⟨hstep, perform_step_faulted hstep rfl⟩

/-! ### Every STEP completes (40 R147) -/

/-- FX0A with no key pressed sets PC back to its own address (45 R296). -/
theorem exec_ldVxKey_noKey (h : s.firstPressed = none) : exec (.ldVxKey x) s = .next (s.setPc s.pc0) := by
  simp only [exec, execLdVxKey, h]
  rfl

/-- FX0A with a key pressed stores the lowest one (45 R296). -/
theorem exec_ldVxKey_key {k : Reg} (h : s.firstPressed = some k) :
    exec (.ldVxKey x) s = .next (s.setV x (BitVec.ofNat 8 k.val)) := by
  simp only [exec, execLdVxKey, h]

/-- Every instruction answers a next state: by its definition, as a transaction, or, for FX0A, with a key or
without. -/
theorem exec_next (i : Instr) (s : State) : ∃ t, exec i s = .next t := by
  cases i with
  | ret | call _ | drw _ _ _ | skp _ | sknp _ | ldBcd _ | storeRegs _ | loadRegs _ => exact transact_next s _
  | ldVxKey x =>
    cases hk : s.firstPressed with
    | none => exact ⟨_, exec_ldVxKey_noKey hk⟩
    | some k => exact ⟨_, exec_ldVxKey_key hk⟩
  | _ => exact ⟨_, rfl⟩

theorem step_next (s : State) : ∃ t, step s = .next t := by
  rcases step_cases s with ⟨f, -, h⟩ | ⟨f, -, -, h⟩ | ⟨i, -, -, h⟩
  · exact ⟨_, h⟩
  · exact ⟨_, h⟩
  · rw [h]
    exact exec_next i s.advancePc

theorem advancePc_setPc_pc0 (s : State) : s.advancePc.setPc s.advancePc.pc0 = s := by
  rw [advancePc_pc0]
  rfl

/-- A machine that waits at an FX0A with no key pressed is a fixpoint of STEP. -/
theorem step_waiting {p : Word} (hw : Waiting s p x) (hk : s.firstPressed = none) : step s = .next s := by
  obtain ⟨hr, -, hf⟩ := hw
  rw [step_running s hr hf, exec_ldVxKey_noKey (s := s.advancePc) hk, advancePc_setPc_pc0]

/-! What the operations of the host leave of a state (00 R7). -/

theorem perform_pixel_state (a b : Nat) (s : State) : (perform (.pixel a b) s).1 = s := by
  simp only [perform]
  split <;> rfl

/-- The timers are no part of a fetch. -/
theorem fetchInstr_tick (s : State) : fetchInstr (tick s) = fetchInstr s := rfl

theorem waiting_tick {p : Word} (hw : Waiting s p x) : Waiting (tick s) p x := by
  obtain ⟨hr, hpc, hf⟩ := hw
  exact ⟨hr, hpc, (fetchInstr_tick s).trans hf⟩

/-- Settles O10: the STEP is a fixpoint while no key is pressed, TICK writes the timers alone, and the queries write
nothing. -/
theorem stepAlwaysCompletes : Obligations.StepAlwaysCompletes := by
  refine ⟨step_next, exec_next, fun s p x hw hk => ?_⟩
  have hstep : step s = .next s := step_waiting hw ((firstPressed_none s).mpr hk)
  refine ⟨hstep, fun op hset hload => ?_⟩
  cases op with
  | load rom => exact absurd rfl (hload rom)
  | setKeys k => exact absurd rfl (hset k)
  | step =>
    rw [perform_step s hstep]
    exact ⟨hw, rfl⟩
  | tick => exact ⟨waiting_tick hw, rfl⟩
  | pixel a b =>
    rw [perform_pixel_state]
    exact ⟨hw, rfl⟩
  | status | sound => exact ⟨hw, rfl⟩

/-! ### The timers (40 R146) -/

theorem Part.Same.refl (s : State) (p : Part) : p.Same s s := by
  cases p with
  | v | mem => exact fun _ => rfl
  | _ => exact rfl

theorem keepsAllBut_setStatus (s : State) (r : RunStatus) : KeepsAllBut [.status] s (s.setStatus r) := by
  intro p hp; cases p <;> simp_all [Part.Same]

/-- A piece of state that neither the cycle nor a fault writes is changed by a STEP only if the instruction it runs
lists it. -/
theorem runs_of_step_changed {p : Part} (h : step s = .next t) (hp : p ∉ [Part.pc, Part.status])
    (hc : ¬ p.Same s t) : ∃ i, s.runs i ∧ p ∈ writtenParts s.cfg i := by
  rcases step_cases s with ⟨f, -, hstep⟩ | ⟨f, -, -, hstep⟩ | ⟨i, hr, hf, hstep⟩
  · cases hstep.symm.trans h
    exact absurd (Part.Same.refl s p) hc
  · cases hstep.symm.trans h
    exact absurd ((keepsAllBut_setStatus s _).mono (by simp) p hp) hc
  · have hadv : p.Same s s.advancePc := (keepsAllBut_setPc s _).mono (by simp) p hp
    exact ⟨i, ⟨hr, hf⟩, mem_writtenParts_of_changed (s := s.advancePc) (hstep.symm.trans h) hp fun same =>
      hc (hadv.trans same)⟩

/-- Settles O12: FX15 alone lists DT and FX18 alone lists ST; TICK counts both down. -/
theorem stepNeverTicksTheTimers : Obligations.StepNeverTicksTheTimers := by
  refine ⟨fun s t h => ⟨fun hc => ?_, fun hc => ?_⟩, fun s => ⟨countDown_toNat s.dt, countDown_toNat s.st⟩⟩
  · obtain ⟨i, hi, hw⟩ := runs_of_step_changed (p := .dt) h (by decide) hc
    obtain ⟨x, rfl⟩ := dt_mem_writtenParts hw
    exact ⟨x, hi⟩
  · obtain ⟨i, hi, hw⟩ := runs_of_step_changed (p := .st) h (by decide) hc
    obtain ⟨x, rfl⟩ := st_mem_writtenParts hw
    exact ⟨x, hi⟩

end Sys2Proof.Machine
end

section
/-! PROOFS. Control flow (spec 41 R160 to R168; O30 to O34). On entry PC is pc0 + 2 (40 R143). -/

namespace Sys2Proof.Machine

/-! ### The word of an instruction decodes to it (30 R106) -/

theorem decode_of_encode_eq {i : Instr} {w : Word} (hi : i.wellFormed = true) (hw : encode i = w) :
    decode w = .ok i := by
  obtain ⟨r, hr, haccepts, hbuild⟩ := Laws.EncodeHasRow.all i
  rw [← hw, decode_of_accepts hr haccepts, hbuild hi]

theorem wordXKK_toNat_eq (c : Nat) (x : Reg) (kk : Byte) :
    wordXKK c x kk.toNat = formXKK (BitVec.ofNat 4 c) x kk := by
  rw [wordXKK_eq kk.isLt, BitVec.ofNat_toNat, BitVec.setWidth_eq]

theorem encode_call {nnn : Word} (h : nnn.toNat ≤ 0xFFF) : encode (.call nnn) = wordNNN 0x2 nnn :=
  (wordNNN_eq h).symm

section
variable (s : State)

/-! ### Jumps and skips (41 R161, R163 to R166) -/

theorem writesOnlyPc_setPc (a : Word) : WritesOnlyPc (.next (s.setPc a)) s a :=
  ⟨_, rfl, rfl, keepsAllBut_setPc s a⟩

/-- A skip on a test of the condition p. -/
theorem writesOnlyPc_skipIf {c : Bool} {p : Prop} [Decidable p] (h : c = true ↔ p) :
    WritesOnlyPc (.next (s.skipIf c)) s (if p then s.pc + 2 else s.pc) := by
  refine ⟨_, rfl, ?_, keepsAllBut_skipIf s c⟩
  simp only [skipIf_pc, h]

/-! ### The call stack (41 R160, R162) -/

theorem keepsAllBut_setStack_setPc (l : List Word) (a : Word) :
    KeepsAllBut [.pc, .stack] s ((s.setStack l).setPc a) :=
  ((keepsAllBut_setStack s l).trans (keepsAllBut_setPc _ a)).mono (by decide)

end

variable {s : State} {nnn : Word}

theorem exec_ret_concat {l : List Word} {a : Word} (h : s.stack = l ++ [a]) :
    exec .ret s = .next ((s.setStack l).setPc a) := by
  simp only [exec, execRet, popStack_concat s h, transact_ok]

theorem exec_ret_empty (h : s.stack = []) :
    exec .ret s = .next (faultedAt s (.stackUnderflow s.pc0 (encode .ret))) := by
  simp only [exec, execRet, popStack_empty s h]
  rfl

theorem exec_call_pushes (h : s.stack.length < s.cfg.stackDepth) :
    exec (.call nnn) s = .next ((s.setStack (s.stack ++ [s.pc])).setPc nnn) := by
  simp only [exec, execCall, pushStack_ok s h, transact_ok]

theorem exec_call_full (h : s.cfg.stackDepth ≤ s.stack.length) :
    exec (.call nnn) s = .next (faultedAt s (.stackOverflow s.pc0 (encode (.call nnn)))) := by
  simp only [exec, execCall, pushStack_full s h]
  rfl

theorem exec_ret_yields_top {l : List Word} {a : Word} (h : s.stack = l ++ [a]) :
    Yields (exec .ret s) fun t => t.pc = a ∧ t.stack = l ∧ KeepsAllBut [.pc, .stack] s t :=
  ⟨_, exec_ret_concat h, rfl, rfl, keepsAllBut_setStack_setPc s l a⟩

/-- Settles O33: the CALL pushed its return address on the stack as it was, and RET pops that entry. -/
theorem returnUndoesCall : Obligations.ReturnUndoesCall := by
  intro s t u nnn hroom hcall hstack
  have ht : t.stack = s.stack ++ [s.pc] := by
    cases (exec_call_pushes hroom).symm.trans hcall
    rfl
  exact exec_ret_yields_top (hstack.trans ht)

/-- Settles O30: the pop answers the last entry, or the fault where there is none. -/
theorem returnPopsTheStack : Obligations.ReturnPopsTheStack :=
  ⟨decode_of_encode_eq rfl rfl, fun _ _ _ => exec_ret_yields_top, fun _ => exec_ret_empty⟩

/-- Settles O31: JP is a write to PC. -/
theorem jumpSetsPc : Obligations.JumpSetsPc := fun s nnn h =>
  ⟨decode_of_encode_eq (decide_eq_true h) (wordNNN_eq h).symm, writesOnlyPc_setPc s nnn⟩

/-- Settles O32: below the bound the push succeeds, and at the bound it answers the fault with the CALL's word. -/
theorem callPushesAndJumps : Obligations.CallPushesAndJumps := by
  intro s nnn h
  refine ⟨decode_of_encode_eq (decide_eq_true h) (encode_call h), fun hroom => ?_, fun hfull => ?_⟩
  · exact ⟨_, exec_call_pushes hroom, rfl, rfl, keepsAllBut_setStack_setPc s _ nnn⟩
  · rw [← encode_call h]
    exact exec_call_full hfull.ge

/-- Settles O34: each skip tests its own condition. -/
theorem skipsFollowTheirConditions : Obligations.SkipsFollowTheirConditions := by
  intro s x y kk
  refine ⟨⟨?_, ?_⟩, ⟨?_, ?_⟩, ⟨?_, ?_⟩, ⟨?_, ?_⟩⟩
  · exact decode_of_encode_eq rfl (wordXKK_toNat_eq 0x3 x kk).symm
  · exact writesOnlyPc_skipIf s beq_iff_eq
  · exact decode_of_encode_eq rfl (wordXKK_toNat_eq 0x4 x kk).symm
  · exact writesOnlyPc_skipIf s bne_iff_ne
  · exact decode_of_encode_eq rfl (wordXYN_eq (by decide)).symm
  · exact writesOnlyPc_skipIf s beq_iff_eq
  · exact decode_of_encode_eq rfl (wordXYN_eq (by decide)).symm
  · exact writesOnlyPc_skipIf s bne_iff_ne

end Sys2Proof.Machine
end

section
/-! PROOFS. Register loads, the logic instructions, and addition and subtraction (spec 42 R190 to R197; O24, O25). -/

namespace Sys2Proof.Machine

variable {x y : Reg}

/-! ### The words of the register instructions (30 R106) -/

theorem decode_wordXKK {c : Nat} {kk : Byte} {i : Instr} (hi : i.wellFormed = true)
    (he : encode i = formXKK (BitVec.ofNat 4 c) x kk) : decode (wordXKK c x kk.toNat) = .ok i :=
  decode_of_encode_eq hi (he.trans (wordXKK_toNat_eq c x kk).symm)

theorem decode_wordXYN {c n : Nat} {i : Instr} (hn : n < 16) (hi : i.wellFormed = true)
    (he : encode i = formXYN (BitVec.ofNat 4 c) x y (BitVec.ofNat 4 n)) : decode (wordXYN c x y n) = .ok i :=
  decode_of_encode_eq hi (he.trans (wordXYN_eq hn).symm)

/-! ### Byte arithmetic is modulo 256 (42 R202) -/

theorem byte_add_eq (a b : Byte) : a + b = BitVec.ofNat 8 ((a.toNat + b.toNat) % 256) := by
  apply BitVec.eq_of_toNat_eq
  rw [BitVec.toNat_add, BitVec.toNat_ofNat]
  omega

theorem byte_sub_eq (a b : Byte) : a - b = BitVec.ofNat 8 ((256 + a.toNat - b.toNat) % 256) := by
  apply BitVec.eq_of_toNat_eq
  have hb := b.isLt
  rw [BitVec.toNat_sub, BitVec.toNat_ofNat]
  omega

theorem flagByte_decide (p : Prop) [Decidable p] : flagByte (decide p) = if p then 1 else 0 := by
  simp [flagByte]

/-! ### One register, and a result with its flag (42 R203) -/

section
variable (s : State)

theorem writesOnlyV_setV (x : Reg) (b : Byte) : WritesOnlyV (.next (s.setV x b)) s x b :=
  ⟨_, rfl, setV_getV_same s x b, fun _ hr => setV_getV_other s b hr, keepsAllBut_setV s x b⟩

/-- A result and a flag are written to two registers, or, where x = 0xF, the later of the two writes stands. -/
theorem writesResultAndFlag_writeResultFlag (d : Bool) (r : Byte) (g : Bool) {both : Byte}
    (hboth : x = VF → (if flagWrittenLast s.cfg.vfOrder d then flagByte g else r) = both) :
    WritesResultAndFlag (.next (s.writeResultFlag d x r g)) s x r (flagByte g) both := by
  refine ⟨_, rfl, fun hx => ⟨?_, ?_⟩, fun hx => ?_, fun q hqx hqf => ?_, keepsAllBut_writeResultFlag s d x r g⟩
  · rw [writeResultFlag_getV_of_ne s d x r g hx, if_neg hx, if_pos rfl]
  · rw [writeResultFlag_getV_of_ne s d VF r g hx, if_pos rfl]
  · rw [← hboth hx, hx, writeResultFlag_getV]
    simp only [if_true]
  · simp only [writeResultFlag_getV, if_neg hqx, if_neg hqf, ite_self]

/-- The instructions whose row states the flag last (8XY4, 8XY5, 8XY7): where x = 0xF in the row's own order, VF is
the flag. -/
theorem writesResultAndFlag_flagLast (h : s.cfg.vfOrder = .documentOrder ∨ x ≠ VF) (r : Byte) (p : Prop)
    [Decidable p] :
    WritesResultAndFlag (.next (s.writeResultFlag true x r (decide p))) s x r (if p then 1 else 0)
      (if p then 1 else 0) := by
  rw [← flagByte_decide p]
  refine writesResultAndFlag_writeResultFlag s true r _ fun hx => ?_
  have hdoc : s.cfg.vfOrder = .documentOrder := h.resolve_right (not_not.mpr hx)
  simp only [hdoc, flagWrittenLast, if_true]

end

/-- Settles O24: each instruction is one write to V[x]; 7XKK writes the sum modulo 256. -/
theorem loadsAndLogicWriteVx : Obligations.LoadsAndLogicWriteVx := by
  intro s x y kk
  refine ⟨⟨?_, ?_⟩, ⟨?_, ?_⟩, ⟨?_, ?_⟩, ⟨?_, ?_⟩, ⟨?_, ?_⟩, ⟨?_, ?_⟩⟩
  · exact decode_wordXKK rfl rfl
  · exact writesOnlyV_setV s x kk
  · exact decode_wordXKK rfl rfl
  · rw [← byte_add_eq]
    exact writesOnlyV_setV s x _
  · exact decode_wordXYN (by decide) rfl rfl
  · exact writesOnlyV_setV s x _
  · exact decode_wordXYN (by decide) rfl rfl
  · exact writesOnlyV_setV s x _
  · exact decode_wordXYN (by decide) rfl rfl
  · exact writesOnlyV_setV s x _
  · exact decode_wordXYN (by decide) rfl rfl
  · exact writesOnlyV_setV s x _

/-- Settles O25: both instructions write the flag last, which is the carry of the sum or the absence of a borrow. -/
theorem addAndSubSetVf : Obligations.AddAndSubSetVf := by
  intro s x y h
  refine ⟨⟨?_, ?_⟩, ⟨?_, ?_⟩⟩
  · exact decode_wordXYN (by decide) rfl rfl
  · rw [← byte_add_eq]
    exact writesResultAndFlag_flagLast s h _ _
  · exact decode_wordXYN (by decide) rfl rfl
  · rw [← byte_sub_eq]
    exact writesResultAndFlag_flagLast s h _ _

end Sys2Proof.Machine
end

section
/-! PROOFS. The loads of I, and the BCD digits in memory (spec 43 R230, R232, R233; O36, O38). -/

namespace Sys2Proof.Machine

/-! ### Loads of I (43 R230, R232) -/

theorem writesOnlyI_setI (s : State) (a : Word) : WritesOnlyI (.next (s.setI a)) s a :=
  ⟨_, rfl, rfl, keepsAllBut_setI s a⟩

/-- Settles O36: both are one write to I, and 5 times a byte is below 65536. -/
theorem indexLoads : Obligations.IndexLoads := by
  intro s x nnn
  refine ⟨fun h => ⟨?_, writesOnlyI_setI s nnn⟩, ?_, ?_⟩
  · exact decode_of_encode_eq (decide_eq_true h) (wordNNN_eq h).symm
  · exact decode_wordXKK (kk := 0x29) rfl rfl
  · exact ⟨_, rfl, fontAddress_toNat (s.getV x), keepsAllBut_setI s _⟩

/-! ### A block in memory, byte by byte (20 R85) -/

section
variable {s : State} {a k : Nat} {bs : List Byte}

theorem writeBytes_readByte_inside (hm : Memory.wf s.cfg s.mem) (hk : k < bs.length) :
    (s.writeBytes a bs).readByte (a + k) = bs[k] := by
  rw [writeBytes_readByte s a bs (a + k) hm, dif_pos (by omega)]
  simp only [Nat.add_sub_cancel_left]

theorem writeBytes_readByte_outside (hm : Memory.wf s.cfg s.mem) (hk : k < a ∨ a + bs.length ≤ k) :
    (s.writeBytes a bs).readByte k = s.readByte k := by
  rw [writeBytes_readByte s a bs k hm, dif_neg (by omega)]

end

/-! ### The three digits (43 R233) -/

section
variable (b : Byte)

theorem bcdDigits_hundreds_toNat : (bcdDigits b)[0].toNat = b.toNat / 100 := by
  have hb := b.isLt
  exact Nat.mod_eq_of_lt (by omega)

theorem bcdDigits_tens_toNat : (bcdDigits b)[1].toNat = b.toNat / 10 % 10 :=
  Nat.mod_eq_of_lt (by omega)

theorem bcdDigits_ones_toNat : (bcdDigits b)[2].toNat = b.toNat % 10 :=
  Nat.mod_eq_of_lt (by omega)

end

theorem exec_ldBcd_writes {s : State} {x : Reg} (hm : s.base + 2 < s.cfg.memSize)
    (hp : s.cfg.protectReserved = true → 0x200 ≤ s.base) :
    exec (.ldBcd x) s = .next (s.writeBytes s.base (bcdDigits (s.getV x))) := by
  have hblock : s.base + (bcdDigits (s.getV x)).length ≤ s.cfg.memSize := hm
  simp only [exec, execLdBcd, memWrite_ok s hblock hp, transact_ok]

/-- Settles O38: the store passes its checks, and the block it writes is the three digits. -/
theorem bcdStoresThreeDigits : Obligations.BcdStoresThreeDigits := by
  intro s x hwf hm hp
  have digit (k : Nat) (hk : k < (bcdDigits (s.getV x)).length) :
      ((s.writeBytes s.base (bcdDigits (s.getV x))).readByte (s.base + k)).toNat = (bcdDigits (s.getV x))[k].toNat :=
    congrArg BitVec.toNat (writeBytes_readByte_inside hwf hk)
  refine ⟨decode_of_encode_eq rfl (encode_ldBcd x), _, exec_ldBcd_writes hm hp, ?_, ?_, ?_, fun a ha => ?_, ?_⟩
  · exact (digit 0 (by simp)).trans (bcdDigits_hundreds_toNat _)
  · exact (digit 1 (by simp)).trans (bcdDigits_tens_toNat _)
  · exact (digit 2 (by simp)).trans (bcdDigits_ones_toNat _)
  · exact writeBytes_readByte_outside hwf ha
  · exact keepsAllBut_writeBytes s _ _

end Sys2Proof.Machine
end

section
/-! PROOFS. CLS, DXYN and the row-mask form of DRAW (spec 44 R260 to R267; O44, O45, O46, O48): drawing inverts a set
of pixels, and a set inverted after a disjoint one inverts their union. -/

namespace Sys2Proof.Machine

/-! ### A set of pixels inverted (44 R263) -/

/-- `out` is `acc` with the pixels of `P` inverted, and with the collision bit raised where one of them was on. -/
structure Inverts (P : Fin 32 → Fin 64 → Prop) (acc out : Framebuffer × Bool) : Prop where
  inside : ∀ q d, P q d → pixelAt out.1 q d = !pixelAt acc.1 q d
  outside : ∀ q d, ¬ P q d → pixelAt out.1 q d = pixelAt acc.1 q d
  collision : out.2 = true ↔ acc.2 = true ∨ ∃ q d, P q d ∧ pixelAt acc.1 q d = true

namespace Inverts

variable {P Q : Fin 32 → Fin 64 → Prop} {acc mid out out' : Framebuffer × Bool}

theorem of_iff (h : Inverts P acc out) (hPQ : ∀ q d, P q d ↔ Q q d) : Inverts Q acc out := by
  obtain rfl : P = Q := funext₂ fun q d => propext (hPQ q d)
  exact h

theorem refl (acc : Framebuffer × Bool) : Inverts (fun _ _ => False) acc acc :=
  ⟨fun _ _ h => h.elim, fun _ _ _ => rfl, by simp⟩

/-- Two disjoint sets inverted one after the other: the second sees its pixels as they were before the first. -/
theorem trans (h : Inverts P acc mid) (k : Inverts Q mid out) (hPQ : ∀ q d, P q d → ¬ Q q d) :
    Inverts (fun q d => P q d ∨ Q q d) acc out where
  inside q d
    | .inl hp => (k.outside q d (hPQ q d hp)).trans (h.inside q d hp)
    | .inr hq => (k.inside q d hq).trans (congrArg _ (h.outside q d fun hp => hPQ q d hp hq))
  outside q d hn := (k.outside q d fun hq => hn (.inr hq)).trans (h.outside q d fun hp => hn (.inl hp))
  collision := by
    have seen : (∃ q d, Q q d ∧ pixelAt mid.1 q d = true) ↔ ∃ q d, Q q d ∧ pixelAt acc.1 q d = true :=
      exists₂_congr fun q d => and_congr_right fun hq => by rw [h.outside q d fun hp => hPQ q d hp hq]
    rw [k.collision, h.collision, seen, or_assoc]
    simp only [or_and_right, exists_or]

/-- The set and the start determine the result. -/
theorem unique (h : Inverts P acc out) (k : Inverts P acc out') : out = out' := by
  refine Prod.ext (framebuffer_ext fun q d => ?_) (Bool.eq_iff_iff.mpr (h.collision.trans k.collision.symm))
  by_cases hp : P q d
  · rw [h.inside q d hp, k.inside q d hp]
  · rw [h.outside q d hp, k.outside q d hp]

end Inverts

/-! ### One sprite row, as pixel loop and as row mask (44 R266, R267) -/

/-- A 1 bit of the byte, drawn from column cx, reaches column d (44 R261, R264, R265). -/
abbrev ByteCovers (cx : Nat) (b : Byte) (d : Fin 64) : Prop :=
  ∃ k ∈ List.range 8, spriteBit b k = true ∧ d = spriteColumn cx k

theorem drawByte_inverts (cx : Nat) (b : Byte) (r : Fin 32) (acc : Framebuffer × Bool) :
    Inverts (fun q d => q = r ∧ ByteCovers cx b d) acc (drawByte cx b r acc) := by
  obtain ⟨hpix, hcol⟩ := drawByte_spec cx b r acc
  refine ⟨fun q d hp => ?_, fun q d hp => ?_, ?_⟩
  · rw [hpix, decide_eq_true hp, Bool.xor_true]
  · rw [hpix, decide_eq_false hp, Bool.xor_false]
  · rw [hcol, Bool.or_eq_true, decide_eq_true_iff]
    refine or_congr_right ⟨?_, ?_⟩
    · rintro ⟨k, hk, hb, hon⟩
      exact ⟨r, _, ⟨rfl, k, hk, hb, rfl⟩, hon⟩
    · rintro ⟨_, _, ⟨rfl, k, hk, hb, rfl⟩, hon⟩
      exact ⟨k, hk, hb, hon⟩

theorem pixelAt_xorRow (f : Framebuffer) (r q : Fin 32) (m : BitVec 64) (d : Fin 64) :
    pixelAt (f.set r.val (f[r.val] ^^^ m)) q d =
      if q = r then pixelAt f q d ^^ m.getLsbD (63 - d.val) else pixelAt f q d := by
  unfold pixelAt
  rw [Vector.getElem_set]
  by_cases hq : q = r
  · subst hq
    rw [if_pos rfl, if_pos rfl, BitVec.getLsbD_xor]
  · rw [if_neg fun h => hq (Fin.ext h.symm), if_neg hq]

/-- The collision test of R267: a bit of the mask is missing after the row is inverted under it just where it was set
before. -/
theorem xor_and_ne_iff (w m : BitVec 64) :
    (w ^^^ m) &&& m ≠ m ↔ ∃ d : Fin 64, m.getLsbD (63 - d.val) = true ∧ w.getLsbD (63 - d.val) = true := by
  constructor
  · refine fun hne => by_contra fun hno => hne (BitVec.eq_of_getLsbD_eq fun j hj => ?_)
    have hbit : m.getLsbD j = true → ¬ w.getLsbD j = true := fun hm hw =>
      hno ⟨⟨63 - j, by omega⟩, by simpa [show 63 - (63 - j) = j by omega] using ⟨hm, hw⟩⟩
    rw [BitVec.getLsbD_and, BitVec.getLsbD_xor]
    cases hm : m.getLsbD j with
    | false => rw [Bool.and_false]
    | true => rw [Bool.eq_false_iff.mpr (hbit hm), Bool.false_xor, Bool.and_true]
  · rintro ⟨d, hm, hw⟩ heq
    have hbit := congrArg (·.getLsbD (63 - d.val)) heq
    simp [hm, hw] at hbit

/-- One row of the row-mask form of DRAW, as `drawMasks` runs it. -/
def maskRow (cx : Nat) (b : Byte) (r : Fin 32) (acc : Framebuffer × Bool) : Framebuffer × Bool :=
  let mask := spriteMask cx b
  let new := acc.1[r.val] ^^^ mask
  (acc.1.set r.val new, acc.2 || (new &&& mask) != mask)

theorem drawMasks_cons (cx cy dy : Nat) (b : Byte) (bs : List Byte) (acc : Framebuffer × Bool) :
    drawMasks cx cy dy (b :: bs) acc = drawMasks cx cy (dy + 1) bs (maskRow cx b (spriteRow cy dy) acc) := rfl

/-- The row-mask form of one sprite row inverts the same pixels as its pixel loop. -/
theorem maskRow_inverts (cx : Nat) (b : Byte) (r : Fin 32) (acc : Framebuffer × Bool) :
    Inverts (fun q d => q = r ∧ ByteCovers cx b d) acc (maskRow cx b r acc) := by
  refine ⟨fun q d ⟨hq, hc⟩ => ?_, fun q d hn => ?_, ?_⟩
  · rw [maskRow, pixelAt_xorRow, if_pos hq, spriteMask_getLsbD, decide_eq_true hc, Bool.xor_true]
  · rw [maskRow, pixelAt_xorRow]
    split
    · next hq => rw [spriteMask_getLsbD, decide_eq_false fun hc => hn ⟨hq, hc⟩, Bool.xor_false]
    · rfl
  · rw [maskRow, Bool.or_eq_true, bne_iff_ne, xor_and_ne_iff]
    simp only [spriteMask_getLsbD, decide_eq_true_iff, and_assoc, exists_and_left, exists_eq_left, pixelAt]

theorem drawRows_eq_drawMasks (cx cy dy : Nat) (bs : List Byte) (acc : Framebuffer × Bool) :
    drawRows cx cy dy bs acc = drawMasks cx cy dy bs acc := by
  induction bs generalizing dy acc with
  | nil => rfl
  | cons b bs ih =>
    have hrow : drawByte cx b (spriteRow cy dy) acc = maskRow cx b (spriteRow cy dy) acc :=
      (drawByte_inverts cx b _ acc).unique (maskRow_inverts cx b _ acc)
    rw [drawRows, drawMasks_cons, hrow, ih]

/-- Settles O46: the two forms agree on each sprite row, since both invert the same pixels. -/
theorem drawEqualsRowMaskForm : Obligations.DrawEqualsRowMaskForm := fun f cx cy bs =>
  drawRows_eq_drawMasks cx cy 0 bs (f, false)

/-! ### A whole sprite (44 R264 to R266) -/

/-- A 1 bit of the rows dy, dy + 1, ... of a sprite, drawn from (cx, cy), covers the pixel at row q, column d. -/
def RowsCover (cx cy dy : Nat) (bs : List Byte) (q : Fin 32) (d : Fin 64) : Prop :=
  ∃ j, ∃ hj : j < bs.length, q = spriteRow cy (dy + j) ∧ ByteCovers cx bs[j] d

theorem rowsCover_nil (cx cy dy : Nat) (q : Fin 32) (d : Fin 64) : ¬ RowsCover cx cy dy [] q d :=
  fun ⟨_, hj, _⟩ => absurd hj (Nat.not_lt_zero _)

theorem rowsCover_cons (cx cy dy : Nat) (b : Byte) (bs : List Byte) (q : Fin 32) (d : Fin 64) :
    RowsCover cx cy dy (b :: bs) q d ↔
      (q = spriteRow cy dy ∧ ByteCovers cx b d) ∨ RowsCover cx cy (dy + 1) bs q d := by
  constructor
  · rintro ⟨_ | j, hj, hq, hc⟩
    · exact .inl ⟨hq, hc⟩
    · exact .inr ⟨j, Nat.lt_of_succ_lt_succ hj, by rw [hq, Nat.add_right_comm, Nat.add_assoc], hc⟩
  · rintro (⟨hq, hc⟩ | ⟨j, hj, hq, hc⟩)
    · exact ⟨0, Nat.zero_lt_succ _, hq, hc⟩
    · exact ⟨j + 1, Nat.succ_lt_succ hj, by rw [hq, Nat.add_right_comm, Nat.add_assoc], hc⟩

/-- Up to 32 rows reach distinct framebuffer rows, so none inverts a pixel of another back. -/
theorem drawRows_inverts (cx cy dy : Nat) (bs : List Byte) (acc : Framebuffer × Bool) (h : dy + bs.length ≤ 32) :
    Inverts (RowsCover cx cy dy bs) acc (drawRows cx cy dy bs acc) := by
  induction bs generalizing dy acc with
  | nil => exact (Inverts.refl acc).of_iff fun q d => (iff_false_intro (rowsCover_nil cx cy dy q d)).symm
  | cons b bs ih =>
    rw [List.length_cons] at h
    refine ((drawByte_inverts cx b (spriteRow cy dy) acc).trans (ih (dy + 1) _ (by omega)) ?_).of_iff
      fun q d => (rowsCover_cons cx cy dy b bs q d).symm
    rintro q d ⟨hq, -⟩ ⟨j, hj, hq', -⟩
    have := spriteRow_inj (by omega) (by omega) (hq.symm.trans hq')
    omega

theorem draw_inverts (f : Framebuffer) (cx cy : Nat) {bs : List Byte} (h : bs.length ≤ 32) :
    Inverts (RowsCover cx cy 0 bs) (f, false) (draw f cx cy bs) :=
  drawRows_inverts cx cy 0 bs _ (by omega)

/-! ### The instructions -/

section
variable {s : State} {x y : Reg} {n : Fin 16}

theorem rowsCover_readBytes_iff (s : State) (x y : Reg) (n : Nat) (q : Fin 32) (d : Fin 64) :
    RowsCover (s.getV x).toNat (s.getV y).toNat 0 (s.readBytes s.base n) q d ↔ Covers s x y n q d := by
  simp only [RowsCover, ByteCovers, Covers, spriteRow, spriteColumn, spriteBit, readBytes_length, readBytes_getElem,
    List.mem_range, Fin.ext_iff, Fin.val_ofNat, Nat.zero_add]
  constructor
  · rintro ⟨dy, hdy, hq, k, hk, hb, hd⟩
    exact ⟨dy, k, hdy, hk, hb, hq, hd⟩
  · rintro ⟨dy, k, hdy, hk, hb, hq, hd⟩
    exact ⟨dy, hdy, hq, k, hk, hb, hd⟩

/-- DXYN inside memory writes the drawn framebuffer and the collision bit. -/
theorem exec_drw_draws (h : n = 0 ∨ s.base + n.val ≤ s.cfg.memSize) :
    ∃ out, Inverts (Covers s x y n.val) (s.fb, false) out ∧
      exec (.drw x y n) s = .next ((s.setFb out.1).setV VF (flagByte out.2)) := by
  refine ⟨_, (draw_inverts s.fb (s.getV x).toNat (s.getV y).toNat ?_).of_iff
    (rowsCover_readBytes_iff s x y n.val), ?_⟩
  · rw [readBytes_length]
    omega
  · simp only [exec, execDrw, memRead_ok s (h.imp_left (congrArg Fin.val)), transact_ok]

end

/-- Settles O45: the drawn framebuffer is the old one with the covered pixels inverted, and VF is the collision
bit. -/
theorem drawXorsTheSprite : Obligations.DrawXorsTheSprite := by
  intro s x y n h
  obtain ⟨out, hout, hexec⟩ := exec_drw_draws (x := x) (y := y) h
  have hcol : out.2 = true ↔ ∃ r c, Covers s x y n.val r c ∧ pixelAt s.fb r c = true := by
    simpa using hout.collision
  have hVF : ((s.setFb out.1).setV VF (flagByte out.2)).getV VF = flagByte out.2 := setV_getV_same _ _ _
  refine ⟨decode_of_encode_eq rfl (encode_drw x y n), _, hexec,
    fun r c => ⟨hout.inside r c, hout.outside r c⟩, fun hon => ?_, fun hoff => ?_,
    fun r hr => setV_getV_other _ _ hr, ?_⟩
  · rw [hVF, hcol.mpr hon]
    rfl
  · rw [hVF, Bool.eq_false_iff.mpr fun ht => hoff (hcol.mp ht)]
    rfl
  · exact ((keepsAllBut_setFb s _).trans (keepsAllBut_setV _ VF _)).mono (by simp)

/-- Settles O44: CLS is one write of the cleared framebuffer. -/
theorem clearScreenTurnsAllPixelsOff : Obligations.ClearScreenTurnsAllPixelsOff :=
  ⟨decode_of_encode_eq rfl rfl, fun s => ⟨_, rfl, pixelAt_clear, keepsAllBut_setFb s _⟩⟩

/-- Settles O48: fewer than 32 rows reach distinct rows, and 8 pixels of a row distinct columns. -/
theorem noPixelIsTouchedTwice : Obligations.NoPixelIsTouchedTwice := by
  intro cx cy dy dy' k k' hdy hdy' hk hk' hrow hcol
  exact ⟨spriteRow_inj (by omega) (by omega) hrow, spriteColumn_inj hk hk' hcol⟩

end Sys2Proof.Machine
end

section
/-! PROOFS. The keypad, the key-wait machine and the timer instructions (45_keys_timers.md; O50 to O55). -/

namespace Sys2Proof.Machine

variable {s t : State} {x : Reg}

/-! ### The key test (45 R291, R292) -/

theorem firstPressed_eq_some_iff {k : Reg} :
    s.firstPressed = some k ↔ s.key[k.val] = true ∧ ∀ j : Reg, j < k → s.key[j.val] = false :=
  ⟨firstPressed_some s, fun ⟨hk, hl⟩ => firstPressed_eq s hk hl⟩

/-- Settles O50: SET_KEYS is one write of the keypad, and the key found is the lowest pressed one. -/
theorem setKeysAndFirstPressed : Obligations.SetKeysAndFirstPressed :=
  ⟨fun _ _ => rfl, fun _ _ => firstPressed_eq_some_iff, firstPressed_none⟩

section
variable {w : Word} {b : Byte}

theorem keyTest_keyIndexed (hm : s.cfg.keySkipMode = .keyIndexed) {k : Reg} (hk : b.toNat = k.val) :
    s.keyTest w b = .ok s.key[k.val] := by
  simp only [State.keyTest, hm, hk, k.isLt, dite_true]

theorem keyTest_keyIndexed_outOfRange (hm : s.cfg.keySkipMode = .keyIndexed) (hb : 16 ≤ b.toNat) :
    s.keyTest w b = .error (.keyIndexOutOfRange s.pc0 w b) := by
  simp only [State.keyTest, hm, dif_neg (Nat.not_lt.mpr hb)]

theorem keyTest_firstPressed (hm : s.cfg.keySkipMode = .firstPressed) :
    s.keyTest w b = .ok (decide (s.firstPressed.map (fun k => k.val) = some b.toNat)) := by
  simp only [State.keyTest, hm]
  cases s.firstPressed with
  | none => simp
  | some k => simp

end

/-! ### The key skips (45 R293, R294) -/

theorem encode_skp (x : Reg) : encode (.skp x) = wordXKK 0xE x 0x9E := (wordXKK_eq (by decide)).symm

theorem encode_sknp (x : Reg) : encode (.sknp x) = wordXKK 0xE x 0xA1 := (wordXKK_eq (by decide)).symm

section
variable {down : Bool} {f : Fault}

theorem exec_skp_of_ok (h : s.keyTest (encode (.skp x)) (s.getV x) = .ok down) :
    exec (.skp x) s = .next (s.skipIf down) := by
  simp only [exec, execSkp, h, transact_ok]

theorem exec_sknp_of_ok (h : s.keyTest (encode (.sknp x)) (s.getV x) = .ok down) :
    exec (.sknp x) s = .next (s.skipIf (!down)) := by
  simp only [exec, execSknp, h, transact_ok]

theorem exec_skp_of_error (h : s.keyTest (encode (.skp x)) (s.getV x) = .error f) :
    exec (.skp x) s = .next (faultedAt s f) := by
  simp only [exec, execSkp, h]
  rfl

theorem exec_sknp_of_error (h : s.keyTest (encode (.sknp x)) (s.getV x) = .error f) :
    exec (.sknp x) s = .next (faultedAt s f) := by
  simp only [exec, execSknp, h]
  rfl

end

/-- Settles O51: V[x] below 16 indexes the keypad, and from 16 up the test answers the fault with the instruction's
own word. -/
theorem keySkipsByIndex : Obligations.KeySkipsByIndex := by
  intro s x hm
  refine ⟨decode_of_encode_eq rfl (encode_skp x), decode_of_encode_eq rfl (encode_sknp x),
    fun k hk => ⟨?_, ?_⟩, fun hv => ⟨?_, ?_⟩⟩
  · rw [exec_skp_of_ok (keyTest_keyIndexed hm hk)]
    exact writesOnlyPc_skipIf s Iff.rfl
  · rw [exec_sknp_of_ok (keyTest_keyIndexed hm hk)]
    exact writesOnlyPc_skipIf s (Bool.not_eq_true' _).to_iff
  · rw [← encode_skp]
    exact exec_skp_of_error (keyTest_keyIndexed_outOfRange hm hv)
  · rw [← encode_sknp]
    exact exec_sknp_of_error (keyTest_keyIndexed_outOfRange hm hv)

/-- Settles O52: the test compares V[x] with the lowest pressed key and answers no fault. -/
theorem keySkipsByFirstPressed : Obligations.KeySkipsByFirstPressed := by
  intro s x hm
  refine ⟨?_, ?_⟩
  · rw [exec_skp_of_ok (keyTest_firstPressed hm)]
    exact writesOnlyPc_skipIf s decide_eq_true_iff
  · rw [exec_sknp_of_ok (keyTest_firstPressed hm)]
    exact writesOnlyPc_skipIf s (by rw [Bool.not_eq_true', decide_eq_false_iff_not])

/-! ### The key wait (45 R296, R299) -/

/-- Settles O53: a key pressed with none lower is the one found, and with none found PC goes back to pc0. -/
theorem keyWaitTakesTheLowestKey : Obligations.KeyWaitTakesTheLowestKey := by
  intro s x
  refine ⟨decode_wordXKK (kk := 0x0A) rfl rfl, fun k hk hl => ?_, fun hno => ?_⟩
  · rw [exec_ldVxKey_key (firstPressed_eq s hk hl)]
    exact writesOnlyV_setV s x _
  · rw [exec_ldVxKey_noKey ((firstPressed_none s).mpr hno)]
    exact writesOnlyPc_setPc s s.pc0

/-- A machine that waits at an FX0A with a key pressed stores the lowest one and goes on. -/
theorem step_waiting_key {p : Word} (hw : Waiting s p x) {k : Reg} (hk : s.firstPressed = some k) :
    step s = .next (s.advancePc.setV x (BitVec.ofNat 8 k.val)) := by
  obtain ⟨hr, -, hf⟩ := hw
  rw [step_running s hr hf, exec_ldVxKey_key (s := s.advancePc) hk]

/-- The keypad is no part of a fetch. -/
theorem waiting_setKey {p : Word} (hw : Waiting s p x) (k : Keypad) : Waiting (s.setKey k) p x := hw

theorem perform_load_ok {rom : List Byte} (h : load rom s = .ok t) : perform (.load rom) s = (t, .ok) := by
  simp only [perform, h]

/-- Settles O54: each operation's row of R299. -/
theorem keyWaitStateMachine : Obligations.KeyWaitStateMachine := by
  intro s p x hw
  refine ⟨step_waiting hw, fun k hk => ?_, fun k => ⟨waiting_setKey hw k, rfl⟩,
    ⟨waiting_tick hw, countDown_toNat s.dt, countDown_toNat s.st⟩, fun rom hfits => ?_⟩
  · have hstep := step_waiting_key hw hk
    obtain ⟨hr, rfl, -⟩ := hw
    exact ⟨_, hstep, rfl, hr, setV_getV_same _ x _, fun r => setV_getV_other _ _,
      (keepsAllBut_setPc s _).trans (keepsAllBut_setV s.advancePc x _)⟩
  · rw [perform_load_ok (load_ok s hfits)]

/-! ### The timers (45 R295, R297, R298) -/

/-- Settles O55: each is one write, to V[x] or to a timer. -/
theorem timerInstructions : Obligations.TimerInstructions := by
  intro s x
  refine ⟨⟨?_, writesOnlyV_setV s x s.dt⟩, ⟨?_, _, rfl, rfl, keepsAllBut_setDt s _⟩,
    ⟨?_, _, rfl, rfl, keepsAllBut_setSt s _⟩⟩
  · exact decode_wordXKK (kk := 0x07) rfl rfl
  · exact decode_wordXKK (kk := 0x15) rfl rfl
  · exact decode_wordXKK (kk := 0x18) rfl rfl

end Sys2Proof.Machine
end

section
/-! PROOFS. The return from a fault, and the timers over every schedule (60_exceptions.md; O13, O56, O57). -/

namespace Sys2Proof.Machine

variable {s : State}

/-! ### The return from a fault (60 R323) -/

theorem perform_load_tooLarge {rom : List Byte} (h : romLimit s.cfg < rom.length) :
    perform (.load rom) s = (s, .fault (.romTooLarge rom.length (romLimit s.cfg))) := by
  simp only [perform, load_tooLarge s h]

/-- Settles O13: a faulted machine does not step, a LOAD of a ROM that does not fit writes nothing, and no other
operation writes the status. -/
theorem onlyLoadEndsAFault : Obligations.OnlyLoadEndsAFault := by
  intro s op f hf
  cases op with
  | load rom =>
    rcases Nat.lt_or_ge (romLimit s.cfg) rom.length with hlong | hfits
    · rw [perform_load_tooLarge hlong]
      exact .inl hf
    · rw [perform_load_ok (load_ok s hfits)]
      exact .inr ⟨rom, rfl, hfits, rfl⟩
  | step =>
    rw [perform_step s (step_faulted s hf)]
    exact .inl hf
  | pixel a b =>
    rw [perform_pixel_state]
    exact .inl hf
  | tick | setKeys _ | status | sound => exact .inl hf

/-! ### TICK (60 R340) -/

/-- Settles O56: TICK is one write of each timer. -/
theorem tickCountsBothTimersDown : Obligations.TickCountsBothTimersDown := fun s =>
  ⟨tick s, rfl, countDown_toNat s.dt, countDown_toNat s.st,
    (keepsAllBut_setDt s _).trans (keepsAllBut_setSt _ _)⟩

/-! ### The timers over a schedule (60 R343) -/

theorem keepsAllBut_setKey (k : Keypad) : KeepsAllBut [.key] s (s.setKey k) := by
  intro p hp; cases p <;> simp_all [Part.Same]

/-- Beside LOAD and TICK, an operation leaves a piece of state alone that is not PC, the status or the keypad, unless
it is a STEP of an instruction that lists the piece. -/
theorem perform_keeps_part {op : HostOp} {p : Part} (hp : p ∉ [Part.pc, Part.status, Part.key])
    (hload : ∀ rom, op ≠ .load rom) (htick : op ≠ .tick)
    (hstep : op = .step → ∀ i, s.runs i → p ∉ writtenParts s.cfg i) : p.Same s (perform op s).1 := by
  cases op with
  | load rom => exact absurd rfl (hload rom)
  | tick => exact absurd rfl htick
  | step =>
    obtain ⟨t, ht⟩ := step_next s
    rw [perform_step s ht]
    by_contra hc
    obtain ⟨i, hi, hw⟩ := runs_of_step_changed ht (fun h => hp (List.mem_append_left [.key] h)) hc
    exact hstep rfl i hi hw
  | setKeys k => exact (keepsAllBut_setKey k).mono (by simp) p hp
  | pixel a b =>
    rw [perform_pixel_state]
    exact .refl s p
  | status | sound => exact .refl s p

/-- A timer that TICK counts down, and that the other operations of a schedule leave alone, ends less by the number of
TICKs in it. `Only` says of a schedule that nothing but TICK changes the timer. -/
theorem performAll_counts_ticks {timer : State → Byte} {Only : List HostOp → State → Prop}
    (htick : ∀ s, timer (tick s) = countDown (timer s))
    (hkeep : ∀ {op ops s}, Only (op :: ops) s → op ≠ .tick → timer (perform op s).1 = timer s)
    (hrest : ∀ {op ops s}, Only (op :: ops) s → Only ops (perform op s).1) (ops : List HostOp) (s : State)
    (h : Only ops s) : (timer (performAll ops s)).toNat = (timer s).toNat - ops.count .tick := by
  induction ops generalizing s with
  | nil => rfl
  | cons op ops ih =>
    have hops : (timer (performAll (op :: ops) s)).toNat = (timer (perform op s).1).toNat - ops.count .tick :=
      ih _ (hrest h)
    by_cases ht : op = .tick
    · subst ht
      have hone : (timer (perform .tick s).1).toNat = (timer s).toNat - 1 :=
        (congrArg BitVec.toNat (htick s)).trans (countDown_toNat _)
      rw [hops, hone, List.count_cons_self, Nat.sub_sub, Nat.add_comm]
    · rw [hops, hkeep h ht, List.count_cons_of_ne ht]

/-- Settles O57: by induction on the schedule; FX15 alone lists DT and FX18 alone lists ST. -/
theorem timersCountTicksInAnySchedule : Obligations.TimersCountTicksInAnySchedule := by
  refine fun ops s => ⟨performAll_counts_ticks (timer := State.dt) (fun _ => rfl) ?_ (fun ⟨_, _, h⟩ => h) ops s,
    performAll_counts_ticks (timer := State.st) (fun _ => rfl) ?_ (fun ⟨_, _, h⟩ => h) ops s⟩
  · intro op ops s ⟨hload, hstep, _⟩ ht
    refine perform_keeps_part (p := .dt) (by decide) hload ht fun hs i hi hw => ?_
    obtain ⟨x, rfl⟩ := dt_mem_writtenParts hw
    exact hstep hs x hi
  · intro op ops s ⟨hload, hstep, _⟩ ht
    refine perform_keeps_part (p := .st) (by decide) hload ht fun hs i hi hw => ?_
    obtain ⟨x, rfl⟩ := st_mem_writtenParts hw
    exact hstep hs x hi

end Sys2Proof.Machine
end

section
/-! PROOFS. The reset by LOAD, and the first STEP after it (70_reset_and_hazards.md; O58, O59). -/

namespace Sys2Proof.Machine

section
variable {s t : State} {rom : List Byte} (h : load rom s = .ok t)
include h

/-! ### Memory after LOAD (70 R362) -/

theorem load_readByte_font {a : Nat} (ha : a < 80) : t.readByte a = s.cfg.font[a] := by
  rw [load_readByte s h, dif_neg (by omega), background, dif_pos ha]

theorem load_readByte_rom {k : Nat} (hk : k < rom.length) : t.readByte (0x200 + k) = rom[k] := by
  rw [load_readByte s h, dif_pos ⟨Nat.le_add_right _ _, Nat.add_lt_add_left hk _⟩]
  simp only [Nat.add_sub_cancel_left]

theorem load_readByte_elsewhere {a : Nat} (hfont : 80 ≤ a) (hrom : a < 0x200 ∨ 0x200 + rom.length ≤ a) :
    t.readByte a = 0 := by
  rw [load_readByte s h, dif_neg (by omega), background, dif_neg (Nat.not_lt.mpr hfont)]

end

/-! ### The reset (70 R362, R363) -/

/-- Settles O58: the ROM's length decides, and a LOAD that fits writes each field it resets once. -/
theorem loadResetsTheMachine : Obligations.LoadResetsTheMachine := by
  refine fun s rom => ⟨fun hlong => perform_load_tooLarge hlong, fun hfits => ?_⟩
  have hload := load_ok s hfits
  refine ⟨_, perform_load_ok hload, ?registers, rfl, rfl, rfl, rfl, rfl, rfl,
    fun _ ha => load_readByte_font hload ha, fun _ hk => load_readByte_rom hload hk,
    fun _ hfont hrom => load_readByte_elsewhere hload hfont hrom, ?frame⟩
  case registers => exact fun r => Vector.getElem_replicate r.isLt
  case frame => intro p hp; cases p <;> simp_all [Part.Same]

/-! ### The first instruction (70 R364, 20 R77) -/

theorem ofNat_bytes_eq_wordOfBytes (hi lo : Byte) :
    BitVec.ofNat 16 (0x100 * hi.toNat + lo.toNat) = wordOfBytes hi lo := by
  rw [← wordOfBytes_toNat, BitVec.ofNat_toNat, BitVec.setWidth_eq]

/-- The first fetch after LOAD finds the ROM's first two bytes. -/
theorem fetchInstr_load {s t : State} {hi lo : Byte} {rest : List Byte} {i : Instr}
    (h : load (hi :: lo :: rest) s = .ok t) (hpc : t.pc = 0x200) (hm : 0x201 < t.cfg.memSize)
    (hd : decode (wordOfBytes hi lo) = .ok i) : fetchInstr t = .ok i := by
  have hhi : t.readByte 0x200 = hi := load_readByte_rom (k := 0) h (by simp)
  have hlo : t.readByte 0x201 = lo := load_readByte_rom (k := 1) h (by simp)
  have hn : t.pc.toNat = 0x200 := congrArg BitVec.toNat hpc
  refine fetchInstr_ok t (hn ▸ hm) ?_
  rw [hn, hhi, hlo, hd]

/-- Settles O59: LOAD leaves a running machine at 0x200, where the word fetched is the ROM's first. -/
theorem loadThenStepRunsTheFirstWord : Obligations.LoadThenStepRunsTheFirstWord := by
  intro s hi lo rest i hfits hd
  rw [ofNat_bytes_eq_wordOfBytes] at hd
  have hload := load_ok (rom := hi :: lo :: rest) s hfits
  have hm : 0x201 < s.cfg.memSize := by omega
  exact ⟨_, perform_load_ok hload, step_running _ rfl (fetchInstr_load hload rfl hm hd)⟩

end Sys2Proof.Machine
end

section
/-! PROOFS. The decoder and the encoder are inverse to each other (spec 30 R100 to R106; O1, O2, O3). -/

namespace Sys2Proof.Machine

variable {w : Word}

/-! ### Decoding what is encoded (30 R100, R104) -/

theorem decode_encode {i : Instr} (h : i.wellFormed = true) : decode (encode i) = .ok i :=
  decode_of_encode_eq h rfl

theorem decodeBytes_of_decode {hi lo : Byte} {i : Instr} (h : decode (wordOfBytes hi lo) = .ok i)
    (rest : List Byte) : decodeBytes (hi :: lo :: rest) = .ok (i, rest) := by
  simp only [decodeBytes, h]

/-- Settles O2: the two bytes make the encoded word again, which decodes by its own row. -/
theorem decodeOfEncodeIsIdentity : Obligations.DecodeOfEncodeIsIdentity := by
  intro i rest hi
  refine decodeBytes_of_decode ?_ rest
  rw [wordOfBytes_bytes]
  exact decode_encode hi

/-! ### A word is its class and its fields (30 R101) -/

theorem class_of_and_F000 {c : BitVec 4} (h : w &&& 0xF000#16 = formNNN c 0) : w.toNat / 0x1000 = c.toNat := by
  rw [and_F000_eq_iff, formNNN_toNat] at h
  exact Nat.eq_of_mul_eq_mul_left (by decide) h

theorem class_n_of_and_F00F {c n : BitVec 4} (h : w &&& 0xF00F#16 = formXYN c 0 0 n) :
    w.toNat / 0x1000 = c.toNat ∧ w.toNat % 0x10 = n.toNat := by
  have hn := n.isLt
  rw [and_F00F_eq_iff, formXYN_toNat, Fin.val_zero] at h
  omega

theorem class_kk_of_and_F0FF {c : BitVec 4} {kk : Byte} (h : w &&& 0xF0FF#16 = formXKK c 0 kk) :
    w.toNat / 0x1000 = c.toNat ∧ w.toNat % 0x100 = kk.toNat := by
  have hkk := kk.isLt
  rw [and_F0FF_eq_iff, formXKK_toNat, Fin.val_zero] at h
  omega

theorem formNNN_fields (c : BitVec 4) (h : w &&& 0xF000#16 = formNNN c 0) : formNNN c (fieldNNN w) = w := by
  have hc := class_of_and_F000 h
  apply BitVec.eq_of_toNat_eq
  rw [formNNN_toNat, fieldNNN_toNat]
  omega

theorem formXKK_fields (c : BitVec 4) (h : w &&& 0xF000#16 = formNNN c 0) :
    formXKK c (fieldX w) (fieldKK w) = w := by
  have hc := class_of_and_F000 h
  apply BitVec.eq_of_toNat_eq
  rw [formXKK_toNat, fieldX_val, fieldKK_toNat]
  omega

theorem formXKK_fieldX (c : BitVec 4) (kk : Byte) (h : w &&& 0xF0FF#16 = formXKK c 0 kk) :
    formXKK c (fieldX w) kk = w := by
  obtain ⟨hc, hkk⟩ := class_kk_of_and_F0FF h
  apply BitVec.eq_of_toNat_eq
  rw [formXKK_toNat, fieldX_val]
  omega

theorem formXYN_fields (c : BitVec 4) (h : w &&& 0xF000#16 = formNNN c 0) :
    formXYN c (fieldX w) (fieldY w) (nibble (fieldN w)) = w := by
  have hc := class_of_and_F000 h
  have hn : (nibble (fieldN w)).toNat = w.toNat % 0x10 := fieldN_val w
  apply BitVec.eq_of_toNat_eq
  rw [formXYN_toNat, fieldX_val, fieldY_val, hn]
  omega

theorem formXYN_fieldXY (c n : BitVec 4) (h : w &&& 0xF00F#16 = formXYN c 0 0 n) :
    formXYN c (fieldX w) (fieldY w) n = w := by
  obtain ⟨hc, hn⟩ := class_n_of_and_F00F h
  apply BitVec.eq_of_toNat_eq
  rw [formXYN_toNat, fieldX_val, fieldY_val]
  omega

/-- The row reads every operand of a word it accepts: encoding them gives the word back. -/
def Rebuilds (r : OpcodeRow) : Prop := ∀ w, w &&& r.mask = r.pattern → encode (r.build w) = w

theorem opcodeRowsLow_rebuild : ∀ r ∈ opcodeRowsLow, Rebuilds r := by
  simp only [opcodeRowsLow, List.forall_mem_cons]
  exact ⟨fun w h => h.symm.trans (and_FFFF w), fun w h => h.symm.trans (and_FFFF w), fun _ => formNNN_fields 0x1,
    fun _ => formNNN_fields 0x2, fun _ => formXKK_fields 0x3, fun _ => formXKK_fields 0x4,
    fun _ => formXYN_fieldXY 0x5 0x0, fun _ => formXKK_fields 0x6, fun _ => formXKK_fields 0x7,
    List.forall_mem_nil _⟩

theorem opcodeRowsRegister_rebuild : ∀ r ∈ opcodeRowsRegister, Rebuilds r := by
  simp only [opcodeRowsRegister, List.forall_mem_cons]
  exact ⟨fun _ => formXYN_fieldXY 0x8 0x0, fun _ => formXYN_fieldXY 0x8 0x1, fun _ => formXYN_fieldXY 0x8 0x2,
    fun _ => formXYN_fieldXY 0x8 0x3, fun _ => formXYN_fieldXY 0x8 0x4, fun _ => formXYN_fieldXY 0x8 0x5,
    fun _ => formXYN_fieldXY 0x8 0x6, fun _ => formXYN_fieldXY 0x8 0x7, fun _ => formXYN_fieldXY 0x8 0xE,
    fun _ => formXYN_fieldXY 0x9 0x0, List.forall_mem_nil _⟩

theorem opcodeRowsHigh_rebuild : ∀ r ∈ opcodeRowsHigh, Rebuilds r := by
  simp only [opcodeRowsHigh, List.forall_mem_cons]
  exact ⟨fun _ => formNNN_fields 0xA, fun _ => formNNN_fields 0xB, fun _ => formXKK_fields 0xC,
    fun _ => formXYN_fields 0xD, fun _ => formXKK_fieldX 0xE 0x9E, fun _ => formXKK_fieldX 0xE 0xA1,
    List.forall_mem_nil _⟩

theorem opcodeRowsMisc_rebuild : ∀ r ∈ opcodeRowsMisc, Rebuilds r := by
  simp only [opcodeRowsMisc, List.forall_mem_cons]
  exact ⟨fun _ => formXKK_fieldX 0xF 0x07, fun _ => formXKK_fieldX 0xF 0x0A, fun _ => formXKK_fieldX 0xF 0x15,
    fun _ => formXKK_fieldX 0xF 0x18, fun _ => formXKK_fieldX 0xF 0x1E, fun _ => formXKK_fieldX 0xF 0x29,
    fun _ => formXKK_fieldX 0xF 0x33, fun _ => formXKK_fieldX 0xF 0x55, fun _ => formXKK_fieldX 0xF 0x65,
    List.forall_mem_nil _⟩

theorem opcodeTable_rebuilds : ∀ r ∈ opcodeTable, Rebuilds r := by
  simp only [opcodeTable, List.forall_mem_append]
  exact ⟨⟨⟨opcodeRowsLow_rebuild, opcodeRowsRegister_rebuild⟩, opcodeRowsHigh_rebuild⟩, opcodeRowsMisc_rebuild⟩

/-- Settles O3: a word that decodes does so by a row that accepts it, and the row rebuilds it. -/
theorem encodeOfDecodeIsIdentity : Obligations.EncodeOfDecodeIsIdentity := by
  refine fun w i h => ⟨wellFormed_of_decode h, ?_⟩
  rcases decode_cases w with ⟨r, hr, hw, hd⟩ | ⟨-, hd⟩
  · cases hd.symm.trans h
    exact opcodeTable_rebuilds r hr w ((r.accepts_iff w).mp hw)
  · cases hd.symm.trans h

/-! ### Written-out words (30 R106) -/

/-- Settles O1: each word is the encoding of its instruction; the last four meet no row. -/
theorem sampleWordsDecode : Obligations.SampleWordsDecode :=
  ⟨decode_encode (i := .cls) rfl, decode_encode (i := .ret) rfl, decode_encode (i := .jp 0x234) rfl,
    decode_encode (i := .call 0x210) rfl, decode_encode (i := .seImm 3 0x10) rfl, decode_encode (i := .seReg 1 2) rfl,
    decode_encode (i := .ldImm 10 0x2B) rfl, decode_encode (i := .shr 3 15) rfl,
    decode_encode (i := .subnReg 1 2) rfl, decode_encode (i := .jpV0 0x300) rfl, decode_encode (i := .drw 1 2 5) rfl,
    decode_encode (i := .skp 2) rfl, decode_encode (i := .ldVxKey 5) rfl, decode_encode (i := .ldBcd 4) rfl,
    decode_encode (i := .loadRegs 0) rfl, by decide, by decide, by decide, by decide⟩

end Sys2Proof.Machine
end

section
/-! PROOFS. The invariant of the machine: at reset, over a STEP, and over every schedule of host operations
(10_state.md section 6, 20_memory.md, 70_reset_and_hazards.md; O18, O19, O20, O21, O23). -/

namespace Sys2Proof.Machine

variable {s t : State}

/-! ### Memory in its canonical form, with the reserved bytes as at reset (90 C7) -/

/-- The part of the invariant that speaks of memory. -/
def Memory.Kept (c : Config) (m : Memory) : Prop :=
  Memory.wf c m ∧ (c.protectReserved = true → ∀ a, a < 0x200 → Memory.read c m a = background c a)

theorem inv_iff : s.Inv ↔ s.cfg.wf ∧ Memory.Kept s.cfg s.mem ∧ s.stack.length ≤ s.cfg.stackDepth :=
  ⟨fun ⟨hc, hm, hs, hr⟩ => ⟨hc, ⟨hm, hr⟩, hs⟩, fun ⟨hc, ⟨hm, hr⟩, hs⟩ => ⟨hc, hm, hs, hr⟩⟩

theorem Memory.kept_nil (c : Config) : Memory.Kept c [] := ⟨Memory.wf_nil c, fun _ a _ => Memory.read_nil c a⟩

/-- A block inside memory, and clear of the reserved area where that is protected (20 R80, R81). -/
def Storable (c : Config) (a : Nat) (bs : List Byte) : Prop :=
  a + bs.length ≤ c.memSize ∧ (c.protectReserved = true → 0x200 ≤ a)

theorem Memory.Kept.writeAll {c : Config} {m : Memory} {a : Nat} {bs : List Byte} (hm : Memory.Kept c m)
    (hb : Storable c a bs) : Memory.Kept c (Memory.writeAll c m a bs) := by
  obtain ⟨hwf, hreserved⟩ := hm
  obtain ⟨hin, hclear⟩ := hb
  refine ⟨Memory.writeAll_wf bs hwf hin, fun hp k hk => ?_⟩
  have hbelow : ¬ (a ≤ k ∧ k < a + bs.length) := by
    have := hclear hp
    omega
  rw [Memory.read_writeAll a k bs hwf.1, dif_neg hbelow]
  exact hreserved hp k hk

theorem memWrite_storable {w : Word} {a : Nat} {bs : List Byte} (h0 : bs ≠ []) (h : memWrite s w a bs = .ok t) :
    Storable s.cfg a bs := by
  obtain ⟨-, hin, hclear⟩ := memWrite_cases s h
  exact ⟨hin.resolve_left h0, fun hp => (hclear hp).resolve_left h0⟩

theorem memWrite_kept {w : Word} {a : Nat} {bs : List Byte} (h0 : bs ≠ []) (hm : Memory.Kept s.cfg s.mem)
    (h : memWrite s w a bs = .ok t) : Memory.Kept s.cfg t.mem := by
  rw [(memWrite_cases s h).1]
  exact hm.writeAll (memWrite_storable h0 h)

/-! ### One instruction -/

/-- FX33 and FX55 store through MemWrite, and no other instruction writes memory. -/
theorem exec_memory_kept {i : Instr} (hm : Memory.Kept s.cfg s.mem) (h : exec i s = .next t) :
    Memory.Kept s.cfg t.mem := by
  cases i with
  | ldBcd x =>
    rcases transact_commits_or_faults h with hw | ⟨f, rfl⟩
    · exact memWrite_kept (bcdDigits_ne_nil _) hm hw
    · exact hm
  | storeRegs x =>
    simp only [exec, execStoreRegs] at h
    split at h <;> cases h
    · next hw =>
      rw [advanceI_mem]
      exact memWrite_kept (regsUpTo_ne_nil s x) hm hw
    · exact hm
  | ret => rcases exec_ret_cases h with ⟨f, rfl⟩ | ⟨l, a, -, rfl⟩ <;> exact hm
  | call nnn => rcases exec_call_cases h with ⟨f, rfl⟩ | rfl <;> exact hm
  | drw x y n => rcases exec_drw_cases h with ⟨f, rfl⟩ | ⟨out, -, rfl⟩ <;> exact hm
  | ldVxKey x => rcases exec_ldVxKey_cases h with ⟨k, -, rfl⟩ | ⟨-, rfl⟩ <;> exact hm
  | skp x =>
    rcases exec_skp_cases h with ⟨f, rfl⟩ | ⟨down, -, rfl⟩
    · exact hm
    · rwa [skipIf_mem]
  | sknp x =>
    rcases exec_sknp_cases h with ⟨f, rfl⟩ | ⟨down, -, rfl⟩
    · exact hm
    · rwa [skipIf_mem]
  | loadRegs x =>
    rcases exec_loadRegs_cases h with ⟨f, rfl⟩ | rfl
    · exact hm
    · rwa [advanceI_mem, setRegsFrom_mem]
  | seImm _ _ | sneImm _ _ | seReg _ _ | sneReg _ _ => cases h; rwa [skipIf_mem]
  | addReg _ _ | subReg _ _ | shr _ _ | subnReg _ _ | shl _ _ => cases h; rwa [writeResultFlag_mem]
  | _ => cases h; exact hm

/-- CALL pushes only below the bound, and RET shortens the stack. -/
theorem exec_stack_bounded {i : Instr} (hs : s.stack.length ≤ s.cfg.stackDepth) (h : exec i s = .next t) :
    t.stack.length ≤ s.cfg.stackDepth := by
  by_cases same : t.stack = s.stack
  · rwa [same]
  rcases stack_mem_writtenParts (mem_writtenParts_of_changed h (p := .stack) (by decide) same) with rfl | ⟨n, rfl⟩
  · rcases exec_ret_cases h with ⟨f, rfl⟩ | ⟨l, a, hl, rfl⟩
    · exact hs
    · have : l.length + 1 ≤ s.cfg.stackDepth := by simpa [hl] using hs
      exact Nat.le_of_succ_le this
  · by_cases hroom : s.stack.length < s.cfg.stackDepth
    · cases (exec_call_pushes hroom).symm.trans h
      simpa using hroom
    · cases (exec_call_full (Nat.le_of_not_lt hroom)).symm.trans h
      exact hs

theorem exec_keeps_inv {i : Instr} (hs : s.Inv) (h : exec i s = .next t) : t.Inv := by
  obtain ⟨hc, hm, hst⟩ := inv_iff.mp hs
  rw [inv_iff, exec_keeps_cfg h]
  exact ⟨hc, exec_memory_kept hm h, exec_stack_bounded hst h⟩

/-! ### STEP and the other host operations -/

/-- The invariant does not speak of PC or the status. -/
theorem State.Inv.setPc (hs : s.Inv) (a : Word) : (s.setPc a).Inv := ⟨hs.cfg, hs.mem, hs.stack, hs.reserved⟩

theorem State.Inv.setStatus (hs : s.Inv) (r : RunStatus) : (s.setStatus r).Inv :=
  ⟨hs.cfg, hs.mem, hs.stack, hs.reserved⟩

/-- Settles O20: a faulted machine does not move, a fetch fault writes the status alone, and an instruction keeps the
invariant. -/
theorem stepKeepsInvariant : Obligations.StepKeepsInvariant := by
  intro s t hs h
  rcases step_cases s with ⟨f, -, hstep⟩ | ⟨f, -, -, hstep⟩ | ⟨i, -, -, hstep⟩
  · cases hstep.symm.trans h
    exact hs
  · cases hstep.symm.trans h
    exact hs.setStatus _
  · exact exec_keeps_inv (hs.setPc _) (hstep.symm.trans h)

/-- LOAD copies a ROM that fits to 0x200, over memory as at reset (70 R362). -/
theorem load_keeps_inv {rom : List Byte} (hs : s.Inv) (h : load rom s = .ok t) : t.Inv := by
  obtain ⟨hc, -, -⟩ := inv_iff.mp hs
  rcases Nat.lt_or_ge (romLimit s.cfg) rom.length with hlong | hfits
  · cases (load_tooLarge s hlong).symm.trans h
  · cases (load_ok s hfits).symm.trans h
    have hmin : 0x200 ≤ s.cfg.memSize := hc.1
    have hrom : Storable s.cfg 0x200 rom := ⟨by unfold romLimit at hfits; omega, fun _ => Nat.le_refl _⟩
    exact inv_iff.mpr ⟨hc, (Memory.kept_nil s.cfg).writeAll hrom, Nat.zero_le _⟩

theorem perform_keeps_inv (op : HostOp) (hs : s.Inv) : (perform op s).1.Inv := by
  cases op with
  | load rom =>
    cases h : load rom s with
    | ok t =>
      rw [perform_load_ok h]
      exact load_keeps_inv hs h
    | error f =>
      simp only [perform, h]
      exact hs
  | step =>
    obtain ⟨t, ht⟩ := step_next s
    rw [perform_step s ht]
    exact stepKeepsInvariant s t hs ht
  | pixel x y =>
    rw [perform_pixel_state]
    exact hs
  | tick | setKeys _ | status | sound => exact ⟨hs.cfg, hs.mem, hs.stack, hs.reserved⟩

/-- Settles O21: by induction on the schedule, since each operation keeps the invariant. -/
theorem everyScheduleKeepsInvariant : Obligations.EveryScheduleKeepsInvariant := by
  intro ops
  induction ops with
  | nil => exact fun _ hs => hs
  | cons op ops ih => exact fun s hs => ih _ (perform_keeps_inv op hs)

/-! ### Power-on (70 R360, R361) -/

/-- Settles O19: at reset nothing is listed in memory and the stack is empty. -/
theorem resetMeetsInvariant : Obligations.ResetMeetsInvariant :=
  ⟨inv_iff.mpr ⟨by decide, Memory.kept_nil _, Nat.zero_le _⟩, ⟨Nat.le_refl _, by decide, List.forall_mem_nil _⟩⟩

theorem reset_readByte (a : Nat) : State.reset.readByte a = background defaultConfig a := Memory.read_nil _ a

theorem background_font {c : Config} {a : Nat} (h : a < 80) : background c a = c.font[a] := dif_pos h

theorem background_zero {c : Config} {a : Nat} (h : 80 ≤ a) : background c a = 0 := dif_neg (Nat.not_lt.mpr h)

/-- The first STEP at power-on fetches the word 0x0000, which is no instruction (70 R361). -/
theorem step_reset :
    step State.reset = .next { State.reset with status := .faulted (.unrecognizedOpcode 0x200 0x0000) } :=
  step_fetchFault _ rfl (fetchInstr_unrecognized (by decide) (by decide) (by decide))

/-- Settles O18: memory reads as its reset content. -/
theorem powerOnState : Obligations.PowerOnState :=
  ⟨fun r => Vector.getElem_replicate r.isLt, rfl, rfl, rfl, rfl, rfl,
    fun a h => (reset_readByte a).trans (background_font h),
    fun a h => (reset_readByte a).trans (background_zero h), pixelAt_clear,
    fun k => Vector.getElem_replicate k.isLt, rfl, rfl, step_reset⟩

/-! ### Canonical memories (20 R70) -/

/-- In canonical form, an address is listed where it does not read as at reset. -/
theorem Memory.mem_iff_read {c : Config} {m : Memory} (hm : Memory.wf c m) (a : Nat) (b : Byte) :
    (a, b) ∈ m ↔ Memory.read c m a = b ∧ b ≠ background c a := by
  constructor
  · intro h
    refine ⟨?_, (hm.2 _ h).2⟩
    rw [Memory.read, Memory.find_of_mem hm.1 h, Option.getD_some]
  · rintro ⟨hr, hb⟩
    cases hf : Memory.find m a with
    | none => exact absurd (by rw [← hr, Memory.read, hf, Option.getD_none]) hb
    | some b' =>
      rw [Memory.read, hf, Option.getD_some] at hr
      exact hr ▸ Memory.mem_of_find hf

/-- Settles O23: the two list the same cells, and a list with strictly rising addresses is determined by its cells. -/
theorem canonicalMemoryIsDeterminedByItsReads : Obligations.CanonicalMemoryIsDeterminedByItsReads := by
  intro c m n hm hn hread
  have same (e : Host.Cell) : e ∈ m ↔ e ∈ n := by
    rw [Memory.mem_iff_read hm, Memory.mem_iff_read hn, hread]
  have distinct {l : Memory} (hl : Memory.rising l) : l.Nodup := hl.imp fun hlt heq => absurd hlt (by simp [heq])
  have hperm : m.Perm n := (List.perm_ext_iff_of_nodup (distinct hm.1) (distinct hn.1)).mpr same
  exact hperm.eq_of_pairwise (fun e f _ _ h1 h2 => absurd h1 (Nat.lt_asymm h2)) hm.1 hn.1

end Sys2Proof.Machine
end

section
/-! PROOFS. A fault is precise and reported (60_exceptions.md section 2, 40 R145; O11). -/

namespace Sys2Proof.Machine

variable {s t : State} {x : Reg} {f : Fault}

/-! ### The record of a fault holds the address of its instruction (60 R321) -/

theorem address_of_memRead_error {w : Word} {a n : Nat} (h : memRead s w a n = .error f) :
    f.address = some s.pc0 := by
  rw [memRead_error s h]; rfl

theorem address_of_memWrite_error {w : Word} {a : Nat} {bs : List Byte} (h : memWrite s w a bs = .error f) :
    f.address = some s.pc0 := by
  rcases memWrite_error s h with rfl | rfl <;> rfl

theorem address_of_keyTest_error {w : Word} {b : Byte} (h : s.keyTest w b = .error f) :
    f.address = some s.pc0 := by
  obtain ⟨-, -, rfl⟩ := keyTest_error s h
  rfl

theorem address_of_fetchInstr_error (h : fetchInstr s = .error f) : f.address = some s.pc := by
  rcases fetchInstr_error s h with ⟨-, rfl⟩ | ⟨-, rfl⟩ <;> rfl

/-- A running machine that ends an instruction faulted took the fault, whose record holds pc0: the status is
otherwise not written. -/
theorem exec_fault {i : Instr} (hr : s.status = .running) (h : exec i s = .next t) (hf : t.status = .faulted f) :
    t = faultedAt s f := by
  rcases exec_faults_or_keeps h with ⟨g, rfl⟩ | hk
  · cases hf; rfl
  · have same : t.status = s.status := hk .status (not_mem_writtenParts _ _ (.inr (.inr rfl)))
    cases (same.trans hr).symm.trans hf

/-- The record of a fault that an instruction raises holds pc0. -/
theorem exec_fault_address {i : Instr} (hr : s.status = .running) (h : exec i s = .next t)
    (hf : t.status = .faulted f) : f.address = some s.pc0 := by
  have committed {u : State} (hu : u.status = s.status) : u.status ≠ .faulted f := fun he =>
    RunStatus.noConfusion ((hu.trans hr).symm.trans he)
  cases i with
  | ret =>
    rcases popStack_cases s (encode .ret) with ⟨l, a, hs, -⟩ | ⟨hs, -⟩
    · cases (exec_ret_concat hs).symm.trans h
      exact absurd hf (committed rfl)
    · cases (exec_ret_empty hs).symm.trans h
      cases hf; rfl
  | call nnn =>
    rcases Nat.lt_or_ge s.stack.length s.cfg.stackDepth with hroom | hfull
    · cases (exec_call_pushes hroom).symm.trans h
      exact absurd hf (committed rfl)
    · cases (exec_call_full hfull).symm.trans h
      cases hf; rfl
  | drw x y n =>
    simp only [exec, execDrw] at h
    split at h <;> cases h
    · exact absurd hf (committed rfl)
    · next hm => cases hf; exact address_of_memRead_error hm
  | loadRegs x =>
    simp only [exec, execLoadRegs] at h
    split at h <;> cases h
    · exact absurd hf (committed (by simp))
    · next hm => cases hf; exact address_of_memRead_error hm
  | storeRegs x =>
    simp only [exec, execStoreRegs] at h
    split at h <;> cases h
    · next hm => exact absurd hf (committed (by simp [(memWrite_cases s hm).1]))
    · next hm => cases hf; exact address_of_memWrite_error hm
  | ldBcd x =>
    rcases transact_cases s h with hm | ⟨g, hm, rfl⟩
    · exact absurd hf (committed (by simp [(memWrite_cases s hm).1]))
    · cases hf; exact address_of_memWrite_error hm
  | skp x =>
    simp only [exec, execSkp] at h
    split at h <;> cases h
    · exact absurd hf (committed (by simp))
    · next hk => cases hf; exact address_of_keyTest_error hk
  | sknp x =>
    simp only [exec, execSknp] at h
    split at h <;> cases h
    · exact absurd hf (committed (by simp))
    · next hk => cases hf; exact address_of_keyTest_error hk
  | ldVxKey x =>
    rcases exec_ldVxKey_cases h with ⟨k, -, rfl⟩ | ⟨-, rfl⟩ <;> exact absurd hf (committed rfl)
  | _ => cases h; exact absurd hf (committed (by simp [State.drawn]))

theorem faultedAt_advancePc (s : State) (f : Fault) : faultedAt s.advancePc f = { s with status := .faulted f } := by
  show { s with pc := s.advancePc.pc0, status := .faulted f } = _
  rw [advancePc_pc0]

/-- Settles O11: the fetch raises its fault with nothing written but the status, and an instruction's fault undoes
the advance of PC too. -/
theorem faultLeavesStateAsBefore : Obligations.FaultLeavesStateAsBefore := by
  intro s t f hr h hf
  suffices t = { s with status := .faulted f } ∧ f.address = some s.pc from
    ⟨this.1, this.2, perform_step_faulted h hf⟩
  rcases step_cases s with ⟨g, hs, -⟩ | ⟨g, -, hg, hstep⟩ | ⟨i, -, -, hstep⟩
  · cases hr.symm.trans hs
  · cases hstep.symm.trans h
    cases hf
    exact ⟨rfl, address_of_fetchInstr_error hg⟩
  · have hexec := hstep.symm.trans h
    rw [← faultedAt_advancePc, ← advancePc_pc0 s]
    exact ⟨exec_fault hr hexec hf, exec_fault_address hr hexec hf⟩

end Sys2Proof.Machine
end

section
/-! PROOFS. No instruction reads the sound timer (10_state.md sections 5 and 9; O17): each shared operation and each
instruction commutes with a write of ST. -/

namespace Sys2Proof.Machine

variable (s : State) (b : Byte)

/-! ### The shared operations -/

/-- What an operation answers, with ST written in the state it answers. -/
def outcomeSetSt (b : Byte) : Host.Outcome State Fault Refusal → Host.Outcome State Fault Refusal
  | .next t => .next (t.setSt b)
  | .fault f => .fault f
  | .refused r => .refused r

theorem transact_setSt (r : Except Fault State) :
    transact (s.setSt b) (r.map (·.setSt b)) = outcomeSetSt b (transact s r) := by
  cases r <;> rfl

theorem readBytes_setSt (a n : Nat) : (s.setSt b).readBytes a n = s.readBytes a n := by
  induction n generalizing a with
  | zero => rfl
  | succ n ih => simp only [State.readBytes, setSt_readByte, ih]

theorem base_setSt : (s.setSt b).base = s.base := rfl

theorem regsUpTo_setSt (x : Reg) : (s.setSt b).regsUpTo x = s.regsUpTo x := rfl

theorem keyTest_setSt (w : Word) (c : Byte) : (s.setSt b).keyTest w c = s.keyTest w c := rfl

theorem memRead_setSt (w : Word) (a n : Nat) : memRead (s.setSt b) w a n = memRead s w a n := by
  simp only [memRead, readBytes_setSt]
  rfl

theorem memWrite_setSt (w : Word) (a : Nat) (bs : List Byte) :
    memWrite (s.setSt b) w a bs = (memWrite s w a bs).map (·.setSt b) := by
  have hrange : (s.setSt b).checkRange w a bs.length = s.checkRange w a bs.length := rfl
  have hreserved : (s.setSt b).checkReserved w a bs.length = s.checkReserved w a bs.length := rfl
  simp only [memWrite, hrange, hreserved]
  split
  · rfl
  · split <;> rfl

theorem skipIf_setSt (c : Bool) : (s.setSt b).skipIf c = (s.skipIf c).setSt b := by
  cases c <;> rfl

theorem advanceI_setSt (x : Reg) : (s.setSt b).advanceI x = (s.advanceI x).setSt b := by
  unfold State.advanceI
  rw [apply_ite (State.setSt · b)]
  rfl

theorem writeResultFlag_setSt (d : Bool) (x : Reg) (r : Byte) (g : Bool) :
    (s.setSt b).writeResultFlag d x r g = (s.writeResultFlag d x r g).setSt b := by
  unfold State.writeResultFlag
  rw [apply_ite (State.setSt · b)]
  rfl

theorem setRegsFrom_setSt (k : Nat) (bs : List Byte) :
    (s.setSt b).setRegsFrom k bs = (s.setRegsFrom k bs).setSt b := by
  induction bs generalizing s k with
  | nil => rfl
  | cons c bs ih => exact ih (s.setV (Fin.ofNat 16 k) c) (k + 1)

/-! ### The instructions -/

/-- Every instruction but FX18 answers the same with ST written before it or after it. -/
theorem exec_setSt {i : Instr} (hi : ∀ x, i ≠ .ldStVx x) : exec i (s.setSt b) = outcomeSetSt b (exec i s) := by
  cases i with
  | ldStVx x => exact absurd rfl (hi x)
  | ret =>
    rcases popStack_cases s (encode .ret) with ⟨l, a, hs, -⟩ | ⟨hs, -⟩
    · rw [exec_ret_concat hs, exec_ret_concat (s := s.setSt b) hs]; rfl
    · rw [exec_ret_empty hs, exec_ret_empty (s := s.setSt b) hs]; rfl
  | call nnn =>
    rcases Nat.lt_or_ge s.stack.length s.cfg.stackDepth with hroom | hfull
    · rw [exec_call_pushes hroom, exec_call_pushes (s := s.setSt b) hroom]; rfl
    · rw [exec_call_full hfull, exec_call_full (s := s.setSt b) hfull]; rfl
  | drw x y n =>
    simp only [exec, execDrw, ← transact_setSt, memRead_setSt, base_setSt]
    cases memRead s (encode (.drw x y n)) s.base n.val <;> rfl
  | skp x =>
    simp only [exec, execSkp, ← transact_setSt, keyTest_setSt, setSt_getV, skipIf_setSt]
    cases s.keyTest (encode (.skp x)) (s.getV x) <;> rfl
  | sknp x =>
    simp only [exec, execSknp, ← transact_setSt, keyTest_setSt, setSt_getV, skipIf_setSt]
    cases s.keyTest (encode (.sknp x)) (s.getV x) <;> rfl
  | ldVxKey x =>
    cases hk : s.firstPressed with
    | some k => rw [exec_ldVxKey_key hk, exec_ldVxKey_key (s := s.setSt b) hk]; rfl
    | none => rw [exec_ldVxKey_noKey hk, exec_ldVxKey_noKey (s := s.setSt b) hk]; rfl
  | ldBcd x => simp only [exec, execLdBcd, ← transact_setSt, memWrite_setSt, base_setSt, setSt_getV]
  | storeRegs x =>
    simp only [exec, execStoreRegs, ← transact_setSt, memWrite_setSt, base_setSt, regsUpTo_setSt]
    cases memWrite s (encode (.storeRegs x)) s.base (s.regsUpTo x) with
    | ok t => exact congrArg (transact _ <| .ok ·) (advanceI_setSt t b x)
    | error f => rfl
  | loadRegs x =>
    simp only [exec, execLoadRegs, ← transact_setSt, memRead_setSt, base_setSt, setRegsFrom_setSt, advanceI_setSt]
    cases memRead s (encode (.loadRegs x)) s.base (x.val + 1) <;> rfl
  | seImm _ _ | sneImm _ _ | seReg _ _ | sneReg _ _ => exact congrArg _ (skipIf_setSt s b _)
  | addReg _ _ | subReg _ _ | shr _ _ | subnReg _ _ | shl _ _ => exact congrArg _ (writeResultFlag_setSt s b _ _ _ _)
  | _ => rfl

/-- Settles O17: FX18 writes ST alone, whatever it was, and every other instruction commutes with a write of ST. -/
theorem soundTimerAffectsNothingElse : Obligations.SoundTimerAffectsNothingElse := by
  intro i s t b h
  by_cases hi : ∃ x, i = .ldStVx x
  · obtain ⟨x, rfl⟩ := hi
    exact ⟨t, h, rfl⟩
  · refine ⟨t.setSt b, ?_, rfl⟩
    have hcomm := exec_setSt s b fun x hx => hi ⟨x, hx⟩
    rwa [h] at hcomm

end Sys2Proof.Machine
end

section
/-! PROOFS. 8XY7, the shifts, VF as the destination, and the random byte (42_alu.md R198 to R203; O26 to O29). -/

namespace Sys2Proof.Machine

/-! ### Shifts of a byte, and the bit shifted out (42 R198, R200) -/

section
variable (a : Byte)

theorem byte_shr_one_eq : a >>> 1 = BitVec.ofNat 8 (a.toNat / 2) := by
  apply BitVec.eq_of_toNat_eq
  have ha := a.isLt
  rw [BitVec.toNat_ushiftRight, BitVec.toNat_ofNat, Nat.shiftRight_eq_div_pow]
  omega

theorem byte_shl_one_eq : a <<< 1 = BitVec.ofNat 8 (2 * a.toNat % 256) := by
  apply BitVec.eq_of_toNat_eq
  rw [BitVec.toNat_shiftLeft, BitVec.toNat_ofNat, Nat.shiftLeft_eq]
  omega

/-- A bit of a byte as VF's value (10 R37). -/
theorem flagByte_getLsbD (k : Nat) : flagByte (a.getLsbD k) = BitVec.ofNat 8 (a.toNat / 2 ^ k % 2) := by
  rw [BitVec.getLsbD, Nat.testBit_eq_decide_div_mod_eq, flagByte_decide]
  rcases Nat.mod_two_eq_zero_or_one (a.toNat / 2 ^ k) with h | h <;> simp [h]

theorem flagByte_shiftedOutRight : flagByte (shiftedOutRight a) = BitVec.ofNat 8 (a.toNat % 2) := by
  rw [shiftedOutRight, flagByte_getLsbD, pow_zero, Nat.div_one]

theorem flagByte_shiftedOutLeft : flagByte (shiftedOutLeft a) = BitVec.ofNat 8 (a.toNat / 128) := by
  have ha := a.isLt
  have hbit : a.toNat / 2 ^ 7 % 2 = a.toNat / 128 := by omega
  rw [shiftedOutLeft, flagByte_getLsbD, hbit]

end

/-! ### A result with its flag (42 R203) -/

section
variable (s : State) {x : Reg}

/-- The instructions whose row states the result last (8XY6, 8XYE): where x = 0xF in the row's own order, VF is the
result. -/
theorem writesResultAndFlag_resultLast (h : s.cfg.vfOrder = .documentOrder ∨ x ≠ VF) (r : Byte) (g : Bool) :
    WritesResultAndFlag (.next (s.writeResultFlag false x r g)) s x r (flagByte g) r := by
  refine writesResultAndFlag_writeResultFlag s false r g fun hx => ?_
  have hdoc : s.cfg.vfOrder = .documentOrder := h.resolve_right (not_not.mpr hx)
  rw [hdoc]
  rfl

/-- Where x = 0xF the later of the two writes stands, and no other register changes. -/
theorem writesOnlyV_writeResultFlag_VF (d : Bool) {r r' f both : Byte} {g : Bool} (hr : r = r') (hf : flagByte g = f)
    (hboth : both = if flagWrittenLast s.cfg.vfOrder d then f else r') :
    WritesOnlyV (.next (s.writeResultFlag d VF r g)) s VF both := by
  subst hr hf hboth
  refine ⟨_, rfl, ?_, fun q hq => ?_, keepsAllBut_writeResultFlag s d VF r g⟩
  · rw [writeResultFlag_getV]
    simp only [if_true]
  · simp only [writeResultFlag_getV, if_neg hq, ite_self]

end

/-- Settles O26: 8XY7 writes the flag last, which is the absence of a borrow. -/
theorem subnSetsVf : Obligations.SubnSetsVf := by
  intro s x y h
  refine ⟨decode_wordXYN (by decide) rfl rfl, ?_⟩
  rw [← byte_sub_eq]
  exact writesResultAndFlag_flagLast s h _ _

/-- Settles O27: both shifts write the result last. -/
theorem shiftsSetVf : Obligations.ShiftsSetVf := by
  intro s x y h
  refine ⟨⟨decode_wordXYN (by decide) rfl rfl, ?_⟩, ⟨decode_wordXYN (by decide) rfl rfl, ?_⟩⟩
  · rw [← byte_shr_one_eq, ← flagByte_shiftedOutRight]
    exact writesResultAndFlag_resultLast s h _ _
  · rw [← byte_shl_one_eq, ← flagByte_shiftedOutLeft]
    exact writesResultAndFlag_resultLast s h _ _

/-- Settles O28: 8FY4, 8FY5 and 8FY7 state the flag last, 8FY6 and 8FYE the result; VF_ORDER chooses the write that
stands. -/
theorem vfWhenItIsTheDestination : Obligations.VfWhenItIsTheDestination := by
  intro s y a b flagFirst resultFirst
  have hflag (r f : Byte) : flagFirst r f = if flagWrittenLast s.cfg.vfOrder false then f else r := by
    cases hv : s.cfg.vfOrder <;> simp only [flagFirst, hv, flagWrittenLast] <;> rfl
  have hresult (r f : Byte) : resultFirst r f = if flagWrittenLast s.cfg.vfOrder true then f else r := by
    cases hv : s.cfg.vfOrder <;> simp only [resultFirst, hv, flagWrittenLast] <;> rfl
  refine ⟨?_, ?_, ?_, ?_, ?_⟩
  · exact writesOnlyV_writeResultFlag_VF s true (byte_add_eq _ _) (flagByte_decide _) (hresult _ _)
  · exact writesOnlyV_writeResultFlag_VF s true (byte_sub_eq _ _) (flagByte_decide _) (hresult _ _)
  · exact writesOnlyV_writeResultFlag_VF s false (byte_shr_one_eq _) (flagByte_shiftedOutRight _) (hflag _ _)
  · exact writesOnlyV_writeResultFlag_VF s true (byte_sub_eq _ _) (flagByte_decide _) (hresult _ _)
  · exact writesOnlyV_writeResultFlag_VF s false (byte_shl_one_eq _) (flagByte_shiftedOutLeft _) (hflag _ _)

/-! ### The random byte (42 R201) -/

/-- A masked byte has no bit outside its mask. -/
theorem and_mask_and_not_mask (r kk : Byte) : (r &&& kk) &&& ~~~kk = 0 := by
  rw [BitVec.and_assoc, BitVec.and_not_self]
  exact BitVec.and_zero

/-- Settles O29: one draw, then one write of the drawn byte under the mask. -/
theorem rndMasksAFreshByte : Obligations.RndMasksAFreshByte := by
  intro s x kk
  have hx : (s.drawn.setV x (s.nextRandom &&& kk)).getV x = s.nextRandom &&& kk := setV_getV_same _ x _
  refine ⟨decode_wordXKK rfl rfl, _, rfl, hx, ?_, rfl, fun r hr => setV_getV_other _ _ hr, ?_⟩
  · rw [hx]
    exact and_mask_and_not_mask _ kk
  · exact ((keepsAllBut_drawn s).trans (keepsAllBut_setV _ x _)).mono (by decide)

end Sys2Proof.Machine
end

section
/-! PROOFS. The computed jump, FX1E, and the register block in memory (41 R167, 43 R231, R234, R235; O35, O37, O39,
O40). -/

namespace Sys2Proof.Machine

/-! ### A byte added to a word (41 R167, 43 R231) -/

theorem word_add_zext16_eq (a : Word) (b : Byte) :
    a + zext16 b = BitVec.ofNat 16 ((a.toNat + b.toNat) % 65536) := by
  apply BitVec.eq_of_toNat_eq
  rw [BitVec.toNat_add, zext16_toNat, BitVec.toNat_ofNat]
  omega

/-- Settles O35: 0xFFF + 0xFF is below 65536, so the sum does not wrap. -/
theorem computedJumpAddsV0 : Obligations.ComputedJumpAddsV0 := by
  intro s nnn h
  have hv := (s.getV 0).isLt
  have hsum : (nnn + zext16 (s.getV 0)).toNat = nnn.toNat + (s.getV 0).toNat := by
    rw [BitVec.toNat_add, zext16_toNat]
    omega
  refine ⟨decode_of_encode_eq (decide_eq_true h) (wordNNN_eq h).symm, _, rfl, hsum, ?_, keepsAllBut_setPc s _⟩
  show (nnn + zext16 (s.getV 0)).toNat ≤ 0x10FE
  omega

/-- Settles O37: FX1E is one write to I, of the sum modulo 65536. -/
theorem addToIndexWraps : Obligations.AddToIndexWraps := by
  intro s x
  refine ⟨decode_wordXKK (kk := 0x1E) rfl rfl, ?_⟩
  rw [← word_add_zext16_eq]
  exact writesOnlyI_setI s _

/-! ### The register block (43 R234, R235) -/

section
variable {s : State} {x : Reg}

theorem advancedParts_subset (c : Config) : advancedParts c ⊆ [.i] := by
  unfold advancedParts
  split <;> simp

theorem exec_storeRegs_writes (hm : s.base + x.val < s.cfg.memSize)
    (hp : s.cfg.protectReserved = true → 0x200 ≤ s.base) :
    exec (.storeRegs x) s = .next ((s.writeBytes s.base (s.regsUpTo x)).advanceI x) := by
  have hblock : s.base + (s.regsUpTo x).length ≤ s.cfg.memSize := by rwa [regsUpTo_length]
  simp only [exec, execStoreRegs, memWrite_ok s hblock hp, transact_ok]

theorem exec_loadRegs_reads (hm : s.base + x.val < s.cfg.memSize) :
    exec (.loadRegs x) s = .next ((s.setRegsFrom 0 (s.readBytes s.base (x.val + 1))).advanceI x) := by
  have hblock : s.base + (x.val + 1) ≤ s.cfg.memSize := hm
  simp only [exec, execLoadRegs, memRead_ok s (.inr hblock), transact_ok]

/-- V[k] after the bytes of a block are loaded into V0 to Vx (43 R235). -/
theorem setRegsFrom_readBytes_getV (s : State) (a : Nat) (x k : Reg) :
    (s.setRegsFrom 0 (s.readBytes a (x.val + 1))).getV k = if k ≤ x then s.readByte (a + k.val) else s.getV k := by
  have hlen : 0 + (s.readBytes a (x.val + 1)).length ≤ 16 := by rw [readBytes_length]; omega
  rw [setRegsFrom_getV s 0 _ k hlen]
  by_cases hk : k ≤ x
  · have hkx : k.val ≤ x.val := hk
    rw [dif_pos (by rw [readBytes_length]; omega), if_pos hk, readBytes_getElem]
    rfl
  · have hkx : x.val < k.val := not_le.mp hk
    rw [dif_neg (by rw [readBytes_length]; omega), if_neg hk]

end

/-- Settles O39: the store passes its checks, and the block it writes is [V0..Vx]. -/
theorem storeRegistersWritesTheBlock : Obligations.StoreRegistersWritesTheBlock := by
  intro s x hwf hm hp
  refine ⟨decode_of_encode_eq rfl (encode_storeRegs x), _, exec_storeRegs_writes hm hp, fun k hk => ?_, fun a ha => ?_,
    advanceI_i _ x, ?_⟩
  · rw [advanceI_readByte]
    exact writeBytes_regsUpTo_readByte hwf s.base hk
  · rw [advanceI_readByte]
    exact writeBytes_readByte_outside hwf (by rwa [regsUpTo_length])
  · exact ((keepsAllBut_writeBytes s _ _).trans (keepsAllBut_advanceI _ x rfl)).mono
      (List.cons_subset_cons _ (advancedParts_subset _))

/-- Settles O40: the read passes its check, and its bytes go to V0 to Vx. -/
theorem loadRegistersReadsTheBlock : Obligations.LoadRegistersReadsTheBlock := by
  intro s x hm
  refine ⟨decode_of_encode_eq rfl (encode_loadRegs x), _, exec_loadRegs_reads hm, fun k hk => ?_, fun k hk => ?_, ?_,
    ?_⟩
  · rw [advanceI_getV, setRegsFrom_readBytes_getV, if_pos hk]
  · rw [advanceI_getV, setRegsFrom_readBytes_getV, if_neg (not_le.mpr hk)]
  · rw [advanceI_i, setRegsFrom_cfg, setRegsFrom_i]
  · exact ((keepsAllBut_setRegsFrom s 0 _).trans (keepsAllBut_advanceI _ x (setRegsFrom_cfg s 0 _))).mono
      (List.cons_subset_cons _ (advancedParts_subset _))

end Sys2Proof.Machine
end

section
/-! PROOFS. A sprite drawn twice, the host's queries, and the good end of a run (95 S5, 44 R268, 60 R329, R342,
70 R369; O47, O49, O60). -/

namespace Sys2Proof.Machine

/-! ### A sprite drawn twice (95 S5) -/

theorem flagByte_eq_one_iff (g : Bool) : flagByte g = 1 ↔ g = true := by cases g <;> decide

/-- A set of pixels inverted twice is as it was. -/
theorem Inverts.twice {P : Fin 32 → Fin 64 → Prop} {f : Framebuffer} {c : Bool} {mid out : Framebuffer × Bool}
    (h : Inverts P (f, c) mid) (k : Inverts P (mid.1, false) out) : out.1 = f := by
  refine framebuffer_ext fun q d => ?_
  by_cases hp : P q d
  · rw [k.inside q d hp, h.inside q d hp, Bool.not_not]
  · rw [k.outside q d hp, h.outside q d hp]

/-- Settles O47: the second draw reads the same sprite and place, so both invert the same pixels; from a blank screen
the first finds none of them on, and the second all. -/
theorem drawingTwiceRestoresTheScreen : Obligations.DrawingTwiceRestoresTheScreen := by
  intro s t u v x y n hin ht hu hv
  obtain ⟨first, hfirst, hexec⟩ := exec_drw_draws (x := x) (y := y) hin
  cases hexec.symm.trans ht
  have hin' : n = 0 ∨ u.base + n.val ≤ u.cfg.memSize := by rwa [hu]
  have hcovers : Covers u x y n.val = Covers s x y n.val := by rw [hu]; rfl
  have hfb : u.fb = first.1 := by rw [hu]; rfl
  obtain ⟨second, hsecond, hexec'⟩ := exec_drw_draws (x := x) (y := y) hin'
  cases hexec'.symm.trans hv
  rw [hcovers, hfb] at hsecond
  refine ⟨hfirst.twice hsecond, fun hblank => ⟨?_, ?_⟩⟩
  · have hno : first.2 = false := Bool.eq_false_iff.mpr fun h => by simpa [hblank] using hfirst.collision.mp h
    rw [setV_getV_same, hno]
    rfl
  · have hon (r : Fin 32) (c : Fin 64) (hc : Covers s x y n.val r c) : pixelAt first.1 r c = true := by
      rw [hfirst.inside r c hc, hblank, Bool.not_false]
    rw [setV_getV_same, flagByte_eq_one_iff, hsecond.collision]
    constructor
    · rintro (h | ⟨r, c, hc, -⟩)
      · cases h
      · exact ⟨r, c, hc⟩
    · rintro ⟨r, c, hc⟩
      exact .inr ⟨r, c, hc, hon r c hc⟩

/-! ### The queries (44 R268, 60 R329, R342) -/

theorem pixel_inside (s : State) (c : Fin 64) (r : Fin 32) : pixel c.val r.val s = .ok (pixelAt s.fb r c) :=
  dif_pos ⟨c.isLt, r.isLt⟩

theorem pixel_outside (s : State) {x y : Nat} (h : 64 ≤ x ∨ 32 ≤ y) : pixel x y s = .error (.pixelOutOfRange x y) :=
  dif_neg (by omega)

theorem sound_eq_decide (s : State) : sound s = decide (s.st ≠ 0) :=
  Bool.eq_iff_iff.mpr (bne_iff_ne.trans decide_eq_true_iff.symm)

/-- Settles O49: no query writes the state it reads. -/
theorem queriesChangeNothing : Obligations.QueriesChangeNothing := by
  refine fun s => ⟨fun c r => ?_, fun x y h => ?_, rfl, ?_⟩
  · simp only [perform, pixel_inside]
  · simp only [perform, pixel_outside s h]
  · rw [← sound_eq_decide]
    rfl

/-! ### The good end (70 R369) -/

theorem or_class_eq_wordNNN {p : Word} (h : p.toNat ≤ 0xFFF) : 0x1000 ||| p = wordNNN 0x1 p := by
  have hlt : p.toNat < 2 ^ 12 := Nat.lt_succ_of_le h
  apply BitVec.eq_of_toNat_eq
  have hor : (0x1000 ||| p : Word).toNat = 0x1 <<< 12 ||| p.toNat := BitVec.toNat_or ..
  rw [hor, ← Nat.shiftLeft_add_eq_or_of_lt hlt, wordNNN, BitVec.toNat_ofNat, Nat.shiftLeft_eq]
  omega

theorem fetchInstr_goodEnd {s : State} {p : Word} (h : GoodEnd s p) : fetchInstr s = .ok (.jp p) := by
  obtain ⟨-, rfl, hp, hm, hw⟩ := h
  refine fetchInstr_ok s hm ?_
  rw [hw, or_class_eq_wordNNN hp]
  exact (jumpSetsPc s _ hp).1

/-- Settles O60: the jump writes back the PC that the fetch advanced. -/
theorem goodEndIsAFixpoint : Obligations.GoodEndIsAFixpoint := by
  intro s p h
  have hfetch := fetchInstr_goodEnd h
  obtain ⟨hr, rfl, -⟩ := h
  exact step_running s hr hfetch

end Sys2Proof.Machine
end
